-- ==== Sys2Proof/Word.lean ====
section
/-! DEFINITION. The word types of the CHIP-8 core and their plainest facts (00_scope.md R8, R10). All values of this machine are
unsigned; widening is always with zeros (R10). -/

namespace Sys2Proof

/-- A 4-bit field (R10, "nibble"). -/
abbrev Nibble := BitVec 4

/-- An 8-bit value: a memory cell, a general register, a timer, an immediate `kk`. -/
abbrev Byte := BitVec 8

/-- A 12-bit address field `nnn` (R46). -/
abbrev Addr12 := BitVec 12

/-- A 16-bit value: an instruction word, `I`, `pc`, a stack slot. -/
abbrev Word := BitVec 16

/-- The number of a general register, always a 4-bit instruction field (R17). -/
abbrev Reg := BitVec 4

/-- The number of the flag register `VF`, which is `V[15]` (R15). -/
abbrev flagReg : Reg := 0xF#4

theorem Reg.toNat_lt (r : Reg) : r.toNat < 16 := r.isLt

end Sys2Proof
end

