-- ==== Sys2Proof/Config.lean ====
section
/-! DEFINITION. What is fixed for a machine: the sizes the spec fixes (00_scope.md R8) and the two parameters it leaves open (R9). -/

namespace Sys2Proof.Config

/-- Memory holds addresses 0x000–0xFFF (R8, R31). -/
abbrev memSize : Nat := 4096

/-- A program image is copied from here (R8, R117), and the first fetch is here (R118). -/
abbrev programBase : Nat := 0x200

/-- The largest program image, 4096 − 512 bytes (R8, R109). -/
abbrev maxImage : Nat := 3584

/-- The font's first address (R8, R35). -/
abbrev fontBase : Nat := 0x050

/-- Framebuffer columns (R8, R26). -/
abbrev width : Nat := 64

/-- Framebuffer rows (R8, R26). -/
abbrev height : Nat := 32

/-- The parameter `SHIFT_SOURCE` of R9: which register `SHR` and `SHL` shift. -/
inductive ShiftSource
  /-- Shift `V[x]` in place: the spec's default. -/
  | vx
  /-- Shift `V[y]` into `V[x]`. -/
  | vy
deriving DecidableEq, Repr

/-- The parameter `DRAW_VF_MODE` of R9: what `DRW` writes to `VF` at a toggled pixel. -/
inductive DrawVfMode
  /-- Every toggled pixel writes 1: the spec's default. -/
  | literal
  /-- Every toggled pixel writes the pixel's new value. -/
  | newPixel
deriving DecidableEq, Repr

/-- The two parameters of R9, which 10_state.md calls "inputs of construction or of the model". The model holds them with the
machine (log 5), so that a statement about every state is a statement about every value of both. -/
structure Params where
  shiftSource : ShiftSource
  drawVfMode : DrawVfMode
deriving DecidableEq, Repr

/-- The spec's defaults (R9). DESIGN CHOICE (log 5): the source leaves both open. -/
def Params.default : Params := { shiftSource := .vx, drawVfMode := .literal }

end Sys2Proof.Config
end

