-- ==== Sys2Proof/Syntax.lean ====
section
/-! DEFINITION. The instructions: one constructor per row of the opcode map (30_encoding.md R50, spec/opcode_table.json), in its
order. An operand has the width of its field (R46), so no register index is out of range (R17). -/

namespace Sys2Proof

/-- A decoded instruction (R50, R51: "a closed set of variants, one constructor per row"). -/
inductive Instr
  /-- `CLS`, word `00E0` (R58). -/
  | cls
  /-- `RET`, word `00EE` (R61). -/
  | ret
  /-- `JP nnn`, word `1nnn` (R62). -/
  | jp (nnn : Addr12)
  /-- `CALL nnn`, word `2nnn` (R63). -/
  | call (nnn : Addr12)
  /-- `SE Vx, kk`, word `3xkk` (R66). -/
  | seImm (x : Reg) (kk : Byte)
  /-- `SNE Vx, kk`, word `4xkk` (R67). -/
  | sneImm (x : Reg) (kk : Byte)
  /-- `SE Vx, Vy`, word `5xy0` (R68). -/
  | seReg (x : Reg) (y : Reg)
  /-- `SNE Vx, Vy`, word `9xy0` (R69). -/
  | sneReg (x : Reg) (y : Reg)
  /-- `LD Vx, kk`, word `6xkk` (R73). -/
  | ldImm (x : Reg) (kk : Byte)
  /-- `ADD Vx, kk`, word `7xkk` (R74). -/
  | addImm (x : Reg) (kk : Byte)
  /-- `LD Vx, Vy`, word `8xy0` (R75). -/
  | ldReg (x : Reg) (y : Reg)
  /-- `OR Vx, Vy`, word `8xy1` (R76). -/
  | or (x : Reg) (y : Reg)
  /-- `AND Vx, Vy`, word `8xy2` (R77). -/
  | and (x : Reg) (y : Reg)
  /-- `XOR Vx, Vy`, word `8xy3` (R78). -/
  | xor (x : Reg) (y : Reg)
  /-- `ADD Vx, Vy`, word `8xy4` (R79). -/
  | addReg (x : Reg) (y : Reg)
  /-- `SUB Vx, Vy`, word `8xy5` (R80). -/
  | sub (x : Reg) (y : Reg)
  /-- `SUBN Vx, Vy`, word `8xy7` (R81). -/
  | subn (x : Reg) (y : Reg)
  /-- `SHR Vx, Vy`, word `8xy6` (R82). -/
  | shr (x : Reg) (y : Reg)
  /-- `SHL Vx, Vy`, word `8xyE` (R83). -/
  | shl (x : Reg) (y : Reg)
  /-- `LD I, nnn`, word `Annn` (R84). -/
  | ldI (nnn : Addr12)
  /-- `DRW Vx, Vy, n`, word `Dxyn` (R59). -/
  | drw (x : Reg) (y : Reg) (n : Nibble)
  /-- `SKP Vx`, word `Ex9E` (R90). -/
  | skp (x : Reg)
  /-- `SKNP Vx`, word `ExA1` (R91). -/
  | sknp (x : Reg)
  /-- `LD Vx, DT`, word `Fx07` (R92). -/
  | ldVDt (x : Reg)
  /-- `LD DT, Vx`, word `Fx15` (R93). -/
  | ldDtV (x : Reg)
  /-- `ADD I, Vx`, word `Fx1E` (R85). -/
  | addI (x : Reg)
  /-- `LD F, Vx`, word `Fx29` (R86). -/
  | ldF (x : Reg)
  /-- `LD B, Vx`, word `Fx33` (R87). -/
  | ldB (x : Reg)
  /-- `LD [I], Vx`, word `Fx55` (R88). -/
  | stRange (x : Reg)
  /-- `LD Vx, [I]`, word `Fx65` (R89). -/
  | ldRange (x : Reg)
deriving DecidableEq, Repr

/-- The pseudo-instruction `SHR Vx`, which stands for `SHR Vx, Vx` (30_encoding.md R55). -/
abbrev Instr.shrOne (x : Reg) : Instr := .shr x x

/-- The pseudo-instruction `SHL Vx`, which stands for `SHL Vx, Vx` (30_encoding.md R55). -/
abbrev Instr.shlOne (x : Reg) : Instr := .shl x x

end Sys2Proof
end

