-- ==== Sys2Proof/WellFormed.lean ====
section
/-! DEFINITION. Well-formedness of what a host or an assembler hands in: an instruction's operands and a program image.

An operand's type has exactly the width of its field (30_encoding.md R46), so every instruction term is well-formed: R17 says the
requirement to bounds-check indices "holds by construction of the fields". The check is written out all the same, operand by
operand, with the ranges of R54. The one check that can fail is the image's: R117 rejects an image above 3584 bytes. -/

namespace Sys2Proof

/-- Every operand lies in the range of its field (R46, R54). -/
def Instr.wf : Instr → Bool
  | .cls => true
  | .ret => true
  | .jp nnn => decide (nnn.toNat < 0x1000)
  | .call nnn => decide (nnn.toNat < 0x1000)
  | .seImm x kk => decide (x.toNat < 16) && decide (kk.toNat < 256)
  | .sneImm x kk => decide (x.toNat < 16) && decide (kk.toNat < 256)
  | .seReg x y => decide (x.toNat < 16) && decide (y.toNat < 16)
  | .sneReg x y => decide (x.toNat < 16) && decide (y.toNat < 16)
  | .ldImm x kk => decide (x.toNat < 16) && decide (kk.toNat < 256)
  | .addImm x kk => decide (x.toNat < 16) && decide (kk.toNat < 256)
  | .ldReg x y => decide (x.toNat < 16) && decide (y.toNat < 16)
  | .or x y => decide (x.toNat < 16) && decide (y.toNat < 16)
  | .and x y => decide (x.toNat < 16) && decide (y.toNat < 16)
  | .xor x y => decide (x.toNat < 16) && decide (y.toNat < 16)
  | .addReg x y => decide (x.toNat < 16) && decide (y.toNat < 16)
  | .sub x y => decide (x.toNat < 16) && decide (y.toNat < 16)
  | .subn x y => decide (x.toNat < 16) && decide (y.toNat < 16)
  | .shr x y => decide (x.toNat < 16) && decide (y.toNat < 16)
  | .shl x y => decide (x.toNat < 16) && decide (y.toNat < 16)
  | .ldI nnn => decide (nnn.toNat < 0x1000)
  | .drw x y n => decide (x.toNat < 16) && decide (y.toNat < 16) && decide (n.toNat < 16)
  | .skp x => decide (x.toNat < 16)
  | .sknp x => decide (x.toNat < 16)
  | .ldVDt x => decide (x.toNat < 16)
  | .ldDtV x => decide (x.toNat < 16)
  | .addI x => decide (x.toNat < 16)
  | .ldF x => decide (x.toNat < 16)
  | .ldB x => decide (x.toNat < 16)
  | .stRange x => decide (x.toNat < 16)
  | .ldRange x => decide (x.toNat < 16)

/-- A well-formed instruction. -/
abbrev Instr.WellFormed (i : Instr) : Prop := i.wf = true

/-- The image fits between 0x200 and 0xFFF (R109, R117). -/
def imageFits (image : List Byte) : Bool := decide (image.length ≤ Config.maxImage)

end Sys2Proof
end

