-- ==== Sys2Proof/Decode.lean ====
section
/-! DEFINITION. The decoder (30_encoding.md R46–R53) and, after it, the encoder, written from the same table (R49, R50).

The spec gives every opcode number but `6xkk` from general knowledge (30_encoding.md, warning): log 1. -/

namespace Sys2Proof

/-! ## Fields (R46). Extraction is total (R47). -/

/-- The leading nibble, `w[15:12]`. -/
def fieldOp (w : Word) : Nibble := w.extractLsb' 12 4
/-- `w[11:0]`. -/
def fieldNnn (w : Word) : Addr12 := w.extractLsb' 0 12
/-- `w[7:0]`. -/
def fieldKk (w : Word) : Byte := w.extractLsb' 0 8
/-- `w[11:8]`. -/
def fieldX (w : Word) : Reg := w.extractLsb' 8 4
/-- `w[7:4]`. -/
def fieldY (w : Word) : Reg := w.extractLsb' 4 4
/-- `w[3:0]`. -/
def fieldN (w : Word) : Nibble := w.extractLsb' 0 4

/-! ## Dispatch (R51) -/

/-- The `8xy_` group of R51, selected by the low nibble. -/
def decodeAlu (x y : Reg) (n : Nibble) : Option Instr :=
  match n with
  | 0x0#4 => some (.ldReg x y)
  | 0x1#4 => some (.or x y)
  | 0x2#4 => some (.and x y)
  | 0x3#4 => some (.xor x y)
  | 0x4#4 => some (.addReg x y)
  | 0x5#4 => some (.sub x y)
  | 0x6#4 => some (.shr x y)
  | 0x7#4 => some (.subn x y)
  | 0xE#4 => some (.shl x y)
  | _ => none

/-- The `Ex__` group of R51, selected by the low byte. -/
def decodeKey (x : Reg) (kk : Byte) : Option Instr :=
  match kk with
  | 0x9E#8 => some (.skp x)
  | 0xA1#8 => some (.sknp x)
  | _ => none

/-- The `Fx__` group of R51, selected by the low byte. -/
def decodeMisc (x : Reg) (kk : Byte) : Option Instr :=
  match kk with
  | 0x07#8 => some (.ldVDt x)
  | 0x15#8 => some (.ldDtV x)
  | 0x1E#8 => some (.addI x)
  | 0x29#8 => some (.ldF x)
  | 0x33#8 => some (.ldB x)
  | 0x55#8 => some (.stRange x)
  | 0x65#8 => some (.ldRange x)
  | _ => none

/-- The `00E_` group of R51: the whole word is compared. -/
def decodeFixed (w : Word) : Option Instr :=
  match w with
  | 0x00E0#16 => some .cls
  | 0x00EE#16 => some .ret
  | _ => none

/-- `Decode(w)` of R51. `none` is the pseudocode's `Invalid`: a word that matches no row (R52, R53). Every fixed bit is compared
(the spec's own D2, log 22), and the conventional words the handler list lacks are invalid (the spec's own D1, log 22). -/
def decodeWord (w : Word) : Option Instr :=
  match fieldOp w with
  | 0x0#4 => decodeFixed w
  | 0x1#4 => some (.jp (fieldNnn w))
  | 0x2#4 => some (.call (fieldNnn w))
  | 0x3#4 => some (.seImm (fieldX w) (fieldKk w))
  | 0x4#4 => some (.sneImm (fieldX w) (fieldKk w))
  | 0x5#4 => if fieldN w = 0 then some (.seReg (fieldX w) (fieldY w)) else none
  | 0x6#4 => some (.ldImm (fieldX w) (fieldKk w))
  | 0x7#4 => some (.addImm (fieldX w) (fieldKk w))
  | 0x8#4 => decodeAlu (fieldX w) (fieldY w) (fieldN w)
  | 0x9#4 => if fieldN w = 0 then some (.sneReg (fieldX w) (fieldY w)) else none
  | 0xA#4 => some (.ldI (fieldNnn w))
  | 0xD#4 => some (.drw (fieldX w) (fieldY w) (fieldN w))
  | 0xE#4 => decodeKey (fieldX w) (fieldKk w)
  | 0xF#4 => decodeMisc (fieldX w) (fieldKk w)
  | _ => none

/-! ## Bytes (R38, R45): a word is two bytes, the high one at the lower address -/

/-- The word of two consecutive bytes: "the byte at the lower address is bits 15..8" (R38). -/
def joinBytes (hi lo : Byte) : Word := hi ++ lo

/-- The byte of a word at the lower address (R38). -/
def highByte (w : Word) : Byte := w.extractLsb' 8 8

/-- The byte of a word at the higher address (R38). -/
def lowByte (w : Word) : Byte := w.extractLsb' 0 8

/-- Why bytes are no instruction. -/
inductive DecodeError
  /-- Fewer than the two bytes every instruction has (R45). -/
  | truncated
  /-- The word matches no row of the opcode map (R52). -/
  | invalidOpcode (w : Word)
deriving DecidableEq, Repr

/-- The instruction at the head of a list of bytes and the bytes after it. Total: any other bytes are rejected by name. -/
def decode : List Byte → Except DecodeError (Instr × List Byte)
  | hi :: lo :: rest =>
    match decodeWord (joinBytes hi lo) with
    | some i => .ok (i, rest)
    | none => .error (.invalidOpcode (joinBytes hi lo))
  | _ => .error .truncated

/-- The bytes of a word as they lie in memory (R38). -/
def wordBytes (w : Word) : List Byte := [highByte w, lowByte w]

/-- The word that a row's bits of opcode_table.json make: bit 0 is the word's bit 0, and bits from `nbits` on are 0. -/
def tableWord (nbits w : Nat) : Word := BitVec.ofNat 16 (w % 2 ^ nbits)

/-- The instruction this decoder reads from the word numbered as opcode_table.json numbers it. -/
def decodeTableWord (nbits w : Nat) : Option Instr :=
  match decode (wordBytes (tableWord nbits w)) with
  | .ok (i, _) => some i
  | .error _ => none

/-! ## The encoder (R49, R50) -/

/-- The one word of an instruction (R50: no two rows match the same word). -/
def encodeWord : Instr → Word
  | .cls => 0x00E0#16
  | .ret => 0x00EE#16
  | .jp nnn => 0x1#4 ++ nnn
  | .call nnn => 0x2#4 ++ nnn
  | .seImm x kk => 0x3#4 ++ x ++ kk
  | .sneImm x kk => 0x4#4 ++ x ++ kk
  | .seReg x y => 0x5#4 ++ x ++ y ++ 0x0#4
  | .sneReg x y => 0x9#4 ++ x ++ y ++ 0x0#4
  | .ldImm x kk => 0x6#4 ++ x ++ kk
  | .addImm x kk => 0x7#4 ++ x ++ kk
  | .ldReg x y => 0x8#4 ++ x ++ y ++ 0x0#4
  | .or x y => 0x8#4 ++ x ++ y ++ 0x1#4
  | .and x y => 0x8#4 ++ x ++ y ++ 0x2#4
  | .xor x y => 0x8#4 ++ x ++ y ++ 0x3#4
  | .addReg x y => 0x8#4 ++ x ++ y ++ 0x4#4
  | .sub x y => 0x8#4 ++ x ++ y ++ 0x5#4
  | .subn x y => 0x8#4 ++ x ++ y ++ 0x7#4
  | .shr x y => 0x8#4 ++ x ++ y ++ 0x6#4
  | .shl x y => 0x8#4 ++ x ++ y ++ 0xE#4
  | .ldI nnn => 0xA#4 ++ nnn
  | .drw x y n => 0xD#4 ++ x ++ y ++ n
  | .skp x => 0xE#4 ++ x ++ 0x9E#8
  | .sknp x => 0xE#4 ++ x ++ 0xA1#8
  | .ldVDt x => 0xF#4 ++ x ++ 0x07#8
  | .ldDtV x => 0xF#4 ++ x ++ 0x15#8
  | .addI x => 0xF#4 ++ x ++ 0x1E#8
  | .ldF x => 0xF#4 ++ x ++ 0x29#8
  | .ldB x => 0xF#4 ++ x ++ 0x33#8
  | .stRange x => 0xF#4 ++ x ++ 0x55#8
  | .ldRange x => 0xF#4 ++ x ++ 0x65#8

/-- The bytes of an instruction in memory order. -/
def encode (i : Instr) : List Byte := wordBytes (encodeWord i)

/-! ## The opcode map as a table (R50) -/

/-- A row of R50: its number, and its `match` and `mask`. -/
structure OpcodeRow where
  number : Nat
  pattern : Word
  mask : Word
deriving DecidableEq, Repr

/-- "A word matches a row when `(w & mask) = match`" (R50). -/
abbrev OpcodeRow.matchesWord (r : OpcodeRow) (w : Word) : Prop := w &&& r.mask = r.pattern

/-- The thirty rows of R50, in its order. -/
def opcodeRows : List OpcodeRow :=
  [⟨1, 0x00E0#16, 0xFFFF#16⟩,
   ⟨2, 0x00EE#16, 0xFFFF#16⟩,
   ⟨3, 0x1000#16, 0xF000#16⟩,
   ⟨4, 0x2000#16, 0xF000#16⟩,
   ⟨5, 0x3000#16, 0xF000#16⟩,
   ⟨6, 0x4000#16, 0xF000#16⟩,
   ⟨7, 0x5000#16, 0xF00F#16⟩,
   ⟨8, 0x9000#16, 0xF00F#16⟩,
   ⟨9, 0x6000#16, 0xF000#16⟩,
   ⟨10, 0x7000#16, 0xF000#16⟩] ++
  [⟨11, 0x8000#16, 0xF00F#16⟩,
   ⟨12, 0x8001#16, 0xF00F#16⟩,
   ⟨13, 0x8002#16, 0xF00F#16⟩,
   ⟨14, 0x8003#16, 0xF00F#16⟩,
   ⟨15, 0x8004#16, 0xF00F#16⟩,
   ⟨16, 0x8005#16, 0xF00F#16⟩,
   ⟨17, 0x8007#16, 0xF00F#16⟩,
   ⟨18, 0x8006#16, 0xF00F#16⟩,
   ⟨19, 0x800E#16, 0xF00F#16⟩,
   ⟨20, 0xA000#16, 0xF000#16⟩] ++
  [⟨21, 0xD000#16, 0xF000#16⟩,
   ⟨22, 0xE09E#16, 0xF0FF#16⟩,
   ⟨23, 0xE0A1#16, 0xF0FF#16⟩,
   ⟨24, 0xF007#16, 0xF0FF#16⟩,
   ⟨25, 0xF015#16, 0xF0FF#16⟩,
   ⟨26, 0xF01E#16, 0xF0FF#16⟩,
   ⟨27, 0xF029#16, 0xF0FF#16⟩,
   ⟨28, 0xF033#16, 0xF0FF#16⟩,
   ⟨29, 0xF055#16, 0xF0FF#16⟩,
   ⟨30, 0xF065#16, 0xF0FF#16⟩]

/-- The number of an instruction's row in R50. -/
def Instr.rowNumber : Instr → Nat
  | .cls => 1
  | .ret => 2
  | .jp _ => 3
  | .call _ => 4
  | .seImm _ _ => 5
  | .sneImm _ _ => 6
  | .seReg _ _ => 7
  | .sneReg _ _ => 8
  | .ldImm _ _ => 9
  | .addImm _ _ => 10
  | .ldReg _ _ => 11
  | .or _ _ => 12
  | .and _ _ => 13
  | .xor _ _ => 14
  | .addReg _ _ => 15
  | .sub _ _ => 16
  | .subn _ _ => 17
  | .shr _ _ => 18
  | .shl _ _ => 19
  | .ldI _ => 20
  | .drw _ _ _ => 21
  | .skp _ => 22
  | .sknp _ => 23
  | .ldVDt _ => 24
  | .ldDtV _ => 25
  | .addI _ => 26
  | .ldF _ => 27
  | .ldB _ => 28
  | .stRange _ => 29
  | .ldRange _ => 30

end Sys2Proof
end

