-- ==== Sys2Proof/Machine/State.lean ====
section
/-! DEFINITION. The machine's state (10_state.md), as plain data: the spec's exact tuple, and the two parameters of 00_scope.md R9
beside it. What memory reads as, and every operation, stands in Machine/Memory.lean and Machine/Ops.lean. -/

namespace Sys2Proof.Machine

/-- Memory, as a list of addresses and bytes (`Memory.wf` of Machine/Memory.lean is its canonical form). An unlisted address reads
as it does after construction. -/
abbrev Memory := List Host.Cell

/-- The framebuffer, `fb[px][py]`: 64 columns of 32 booleans (R26). -/
abbrev Framebuffer := Vector (Vector Bool 32) 64

/-- A set of key symbols 0x0–0xF: symbol `k` is in the set when entry `k` is true (R28). -/
abbrev KeySet := Vector Bool 16

/-- The empty key set. -/
def noKeys : KeySet := Vector.replicate 16 false

/-- Every pixel unlit. -/
def blankScreen : Framebuffer := Vector.replicate 64 (Vector.replicate 32 false)

/-- The four fault kinds (60_exceptions.md R95). -/
inductive FaultKind
  /-- Dispatch: the fetched word matches no row of the opcode map (R96). -/
  | invalidOpcode
  /-- `CALL nnn` with `sp = 16` (R97). -/
  | stackOverflow
  /-- `RET` with `sp = 0` (R98). -/
  | stackUnderflow
  /-- The fetch, `DRW` with `n > 0`, `LD B, Vx`, `LD [I], Vx`, `LD Vx, [I]`: an address above 0xFFF (R99). -/
  | memoryOutOfRange
deriving DecidableEq, Repr

/-- The codes of R95 (labels: the spec's own D23, log 25). -/
def FaultKind.code : FaultKind → Nat
  | .invalidOpcode => 1
  | .stackOverflow => 2
  | .stackUnderflow => 3
  | .memoryOutOfRange => 4

/-- The fault record of R29. -/
structure FaultRecord where
  /-- The kind, whose code is `FaultKind.code` (R95). -/
  kind : FaultKind
  /-- The address of the instruction, or fetch, that faulted. -/
  pc : Word
  /-- The instruction word, absent for a fetch fault. -/
  word : Option Word
  /-- The first out-of-range address, for `memoryOutOfRange` only. An address is a natural, computed without truncation (R31). -/
  addr : Option Nat
deriving DecidableEq, Repr

/-- What a cycle returns to the host beside its effects: "completed, or the fault record" (R111). -/
inductive CycleOutcome
  | completed
  | faulted (r : FaultRecord)
deriving DecidableEq, Repr

/-- The state tuple of 10_state.md, field by field; `params` is the model's own field (log 5). -/
structure State where
  /-- Memory, 0x000–0xFFF (R31). -/
  mem : Memory
  /-- The general registers `V0`–`VF` (R15). -/
  V : Vector Byte 16
  /-- The index register (R20). -/
  I : Word
  /-- The program counter (R21). -/
  pc : Word
  /-- The return stack's slots (R24). -/
  stack : Vector Word 16
  /-- How many slots are occupied, 0..16 (R24). -/
  sp : Fin 17
  /-- The framebuffer (R26). -/
  fb : Framebuffer
  /-- The delay timer (R27). -/
  dt : Byte
  /-- The sound timer (R27). -/
  st : Byte
  /-- The pressed-key set: between cycles, what the host has supplied for the next one (R28, R110; log 4). -/
  keys : KeySet
  /-- `none` while the machine runs, the record once a fault has occurred (R29). -/
  halt : Option FaultRecord
  /-- The two parameters of R9, inputs of construction (log 5). No step writes them. -/
  params : Config.Params
deriving DecidableEq, Repr

/-- Reasons for which a step ends with no next state. There is none: every fault the spec describes (R95) has a described effect
(R100: the fault record, the cleared keys, the unmoved pc), so the machine TAKES it, a next state with `halt` set, and a cycle on a
halted machine is a next state too, unchanged (R102). Log 2. -/
inductive Fault
deriving DecidableEq, Repr

/-- Reasons for which the model gives an instruction no meaning. -/
inductive Refusal
  /-- An instruction of the opcode table with no meaning yet, raised by `exec` alone; safe. No arm raises it. -/
  | notModelled (mnemonic : String)
deriving DecidableEq, Repr

/-- What a meaning and a step answer. -/
abbrev Result := Host.Outcome State Fault Refusal

/-- The machine right after construction with an empty image (70_reset_and_hazards.md R117; 10_state.md section 10): memory lists
nothing, so it reads as the font and zeros. -/
def State.reset : State where
  mem := []
  V := Vector.replicate 16 0
  I := 0
  pc := 0x200
  stack := Vector.replicate 16 0
  sp := 0
  fb := blankScreen
  dt := 0
  st := 0
  keys := noKeys
  halt := none
  params := Config.Params.default

end Sys2Proof.Machine
end

