-- ==== Sys2Proof/Machine/Memory.lean ====
section
/-! DEFINITION. Memory (20_memory.md): what an unlisted address reads as, reading and writing one byte, and the canonical form. -/

namespace Sys2Proof.Machine

/-- The font, glyph 0 first, five bytes a glyph, top row first (R35). Glyph 0 is the source's; glyphs 1–F are the spec's, from
general knowledge (D21, log 8). -/
def font : List Byte :=
  [0xF0, 0x90, 0x90, 0x90, 0xF0] ++ [0x20, 0x60, 0x20, 0x20, 0x70] ++
  [0xF0, 0x10, 0xF0, 0x80, 0xF0] ++ [0xF0, 0x10, 0xF0, 0x10, 0xF0] ++
  [0x90, 0x90, 0xF0, 0x10, 0x10] ++ [0xF0, 0x80, 0xF0, 0x10, 0xF0] ++
  [0xF0, 0x80, 0xF0, 0x90, 0xF0] ++ [0xF0, 0x10, 0x20, 0x40, 0x40] ++
  [0xF0, 0x90, 0xF0, 0x90, 0xF0] ++ [0xF0, 0x90, 0xF0, 0x10, 0xF0] ++
  [0xF0, 0x90, 0xF0, 0x90, 0x90] ++ [0xE0, 0x90, 0xE0, 0x90, 0xE0] ++
  [0xF0, 0x80, 0x80, 0x80, 0xF0] ++ [0xE0, 0x90, 0x90, 0x90, 0xE0] ++
  [0xF0, 0x80, 0xF0, 0x80, 0xF0] ++ [0xF0, 0x80, 0xF0, 0x80, 0x80]

/-- What a byte holds after construction with no image (R33, R117): the font at 0x050–0x09F, 0x00 elsewhere (the spec's own D16,
log 7). This is what an unlisted address reads as. -/
def resetByte (a : Nat) : Byte :=
  if a < Config.fontBase then 0 else font.getD (a - Config.fontBase) 0

/-- The byte at an address (`MemRead(a, 1)` of 00_scope.md R13). -/
def Memory.read : Memory → Nat → Byte
  | [], a => resetByte a
  | (k, v) :: rest, a => if a = k then v else Memory.read rest a

/-- A cell put in its place in a list sorted by address. -/
def Memory.insert (a : Nat) (v : Byte) : Memory → Memory
  | [] => [(a, v)]
  | (k, w) :: rest => if a < k then (a, v) :: (k, w) :: rest else (k, w) :: Memory.insert a v rest

/-- The list without an address. -/
def Memory.erase (m : Memory) (a : Nat) : Memory := m.filter fun c => c.1 != a

/-- One byte written (`MemWrite(a, 1, v)` of R13). The canonical form is kept: a byte that equals what an unlisted address reads as
is not listed. -/
def Memory.write (m : Memory) (a : Nat) (v : Byte) : Memory :=
  if v = resetByte a then Memory.erase m a else Memory.insert a v (Memory.erase m a)

/-- The canonical form: addresses strictly rising, each one that exists (R31), and no entry that an unlisted address reads as. -/
def Memory.wf : Memory → Bool
  | [] => true
  | (a, v) :: rest =>
    decide (a < Config.memSize) && decide (v ≠ resetByte a) && rest.all (fun c => decide (a < c.1)) && Memory.wf rest

/-- The byte of the machine's memory at an address. -/
def memRead (s : State) (a : Nat) : Byte := Memory.read s.mem a

/-- The machine with one byte of its memory written. No area is protected (R34; the spec's own D25, log 24). -/
def memWrite (a : Nat) (v : Byte) (s : State) : State := { s with mem := Memory.write s.mem a v }

/-- Consecutive bytes written at ascending addresses from `a` (R37). -/
def memWriteList (a : Nat) : List Byte → State → State
  | [], s => s
  | v :: rest, s => memWriteList (a + 1) rest (memWrite a v s)

end Sys2Proof.Machine
end

