-- ==== Sys2Proof/Machine/Ops.lean ====
section
/-! DEFINITION. The named operations over the state: registers, stack, framebuffer, timers, keys, the pc, the range check, taking a
fault, the fetch and the end of a cycle. Every meaning is written over these. -/

namespace Sys2Proof.Machine

/-! ## General registers (R15–R19) -/

/-- `V[r]`. -/
def readV (s : State) (r : Reg) : Byte := s.V[r.toNat]'(Reg.toNat_lt r)

/-- `V[r] <- v`. -/
def writeV (r : Reg) (v : Byte) (s : State) : State := { s with V := s.V.set r.toNat v (Reg.toNat_lt r) }

/-! ## The program counter (R21, R22). A handler sets it; the fetch does not. -/

/-- `pc <- target`. -/
def setPc (target : Word) (s : State) : State := { s with pc := target }

/-- `next` of R14: `pc <- pc + 2`. The sum never leaves 16 bits in a run (R23; log 29). -/
def advance (s : State) : State := setPc (s.pc + 2) s

/-- The shape all six skips share (R65): `pc <- pc + 4` if the condition holds, else `pc <- pc + 2`. -/
def skipIf (c : Bool) (s : State) : State := if c then setPc (s.pc + 4) s else advance s

/-! ## The index register (R20) -/

/-- `I <- a`. -/
def setI (a : Word) (s : State) : State := { s with I := a }

/-! ## The stack (R24) -/

/-- A push, `none` when all sixteen slots are occupied: `stack[sp] <- v`, then `sp <- sp + 1`. -/
def push? (v : Word) (s : State) : Option State :=
  if h : s.sp.val < 16 then
    some { s with stack := s.stack.set s.sp.val v h, sp := ⟨s.sp.val + 1, by omega⟩ }
  else none

/-- A pop, `none` when no slot is occupied: `sp <- sp - 1`, then the value of `stack[sp]`. The slot is not cleared (R61). -/
def pop? (s : State) : Option (Word × State) :=
  if h : 0 < s.sp.val then
    some (s.stack[s.sp.val - 1]'(by omega), { s with sp := ⟨s.sp.val - 1, by omega⟩ })
  else none

/-! ## The framebuffer (R26) -/

/-- `fb[px][py]`. -/
def pixel (s : State) (px : Fin 64) (py : Fin 32) : Bool := (s.fb[px.val])[py.val]

/-- `fb[px][py] <- b`. -/
def setPixel (px : Fin 64) (py : Fin 32) (b : Bool) (s : State) : State :=
  { s with fb := s.fb.set px.val ((s.fb[px.val]).set py.val b) }

/-- Every cell `false` (R58). -/
def clearScreen (s : State) : State := { s with fb := blankScreen }

/-! ## Timers (R27, R107) -/

/-- One timer's decrement: "decrement each non-zero timer by exactly one". -/
def decTimer (t : Byte) : Byte := if t = 0 then 0 else t - 1

/-- `TimerTick()` of R107, step (a) of a cycle. -/
def timerTick (s : State) : State := { s with dt := decTimer s.dt, st := decTimer s.st }

/-- `dt <- v`. -/
def setDt (v : Byte) (s : State) : State := { s with dt := v }

/-! ## Keys (R28, R110) -/

/-- Whether a symbol is in the machine's pressed-key set. -/
def keyPressed (s : State) (k : Nibble) : Bool := s.keys[k.toNat]'(Reg.toNat_lt k)

/-- The host's supply of a key set for the next cycle (R110). -/
def supplyKeys (K : KeySet) (s : State) : State := { s with keys := K }

/-- Step (d) of a cycle: the pressed-key set is discarded (R56). -/
def endCycle (s : State) : State := { s with keys := noKeys }

/-! ## Faults (60_exceptions.md) -/

/-- `CheckRange(lo, hi)` of R13: the smallest address of `lo .. hi` above 0xFFF, if there is one. -/
def checkRange (lo hi : Nat) : Option Nat := if hi > 0xFFF then some (max lo 0x1000) else none

/-- Taking a fault (R14, R100, R101): the record is set, with the pc of the faulting instruction or fetch, and nothing else is
written; the pc stays. Clearing `keys` is step (d) of the same cycle (`endCycle`). There is no return from a fault (R104): the one
way out is a new construction (`construct` of Machine/HostInterface.lean). -/
def raiseFault (kind : FaultKind) (word : Option Word) (addr : Option Nat) (s : State) : State :=
  { s with halt := some { kind := kind, pc := s.pc, word := word, addr := addr } }

/-- A fault raised by the meaning of `i`: the record's word is the fetched one, which is the one word of `i` (R50; log 6). -/
def raiseIn (i : Instr) (kind : FaultKind) (addr : Option Nat) (s : State) : State :=
  raiseFault kind (some (encodeWord i)) addr s

/-- An instruction that accesses `lo .. hi`: its effect `f`, or, when the range leaves memory, the fault of R99 with nothing of `f`
done. -/
def withRange (i : Instr) (lo hi : Nat) (f : State → State) (s : State) : State :=
  match checkRange lo hi with
  | some a => raiseIn i .memoryOutOfRange (some a) s
  | none => f s

/-! ## Loops -/

/-- `for k in 0 .. n-1`, ascending (R37). -/
def forRange (n : Nat) (f : Nat → State → State) (s : State) : State :=
  match n with
  | 0 => s
  | n + 1 => f n (forRange n f s)

/-! ## Fetch (R38, R40) -/

/-- `Fetch()` of R40: the big-endian word at `pc`, or the first address out of range. It changes nothing. -/
def fetch (s : State) : Except Nat Word :=
  match checkRange s.pc.toNat (s.pc.toNat + 1) with
  | some a => .error a
  | none => .ok (joinBytes (memRead s s.pc.toNat) (memRead s (s.pc.toNat + 1)))

/-- A word laid where the next fetch reads it, and what that fetch needs: the machine runs, and its pc is one a fetch can read. For
the host's own probes (log 27). -/
def placeWord (w : Word) (s : State) : State :=
  let s1 : State := { s with halt := none, pc := if s.pc.toNat + 1 > 0xFFF then 0x200 else s.pc }
  memWrite (s1.pc.toNat + 1) (lowByte w) (memWrite s1.pc.toNat (highByte w) s1)

end Sys2Proof.Machine
end

