-- ==== Sys2Proof/Machine/Operands.lean ====
section
/-! DEFINITION. How operands become values (30_encoding.md R48): an address field, the base address `I`, the register a shift
reads, the key a register names, the digits of a value, a sprite's origin and bits. -/

namespace Sys2Proof.Machine

/-- `zext_16(nnn)` (R48). -/
def addrOf (nnn : Addr12) : Word := nnn.zeroExtend 16

/-- The base address of an access through `I`, a natural (R31). -/
abbrev baseI (s : State) : Nat := s.I.toNat

/-- The register number `k` of a loop over registers, `k` below 16 (R88, R89). -/
def regOf (k : Nat) : Reg := BitVec.ofNat 4 k

/-- The register `SHR` and `SHL` shift: `V[x]` or `V[y]` as `SHIFT_SOURCE` says (R9, R82, R83; the spec's
own D7, log 12). -/
def shiftOperand (s : State) (x y : Reg) : Byte :=
  match s.params.shiftSource with
  | .vx => readV s x
  | .vy => readV s y

/-- The key symbol a register's value names: its low nibble (R90). -/
def keyOf (v : Byte) : Nibble := v.extractLsb' 0 4

/-- The address of the glyph of a value, the whole 8 bits of it (R86). -/
def glyphAddr (v : Byte) : Word := BitVec.ofNat 16 (Config.fontBase + 5 * v.toNat)

/-- The three decimal digits, hundreds first (R87; the order is the spec's own D10, log 17). -/
def bcdDigits (v : Byte) : List Byte :=
  [BitVec.ofNat 8 (v.toNat / 100), BitVec.ofNat 8 (v.toNat / 10 % 10), BitVec.ofNat 8 (v.toNat % 10)]

/-- The column a sprite starts at, reduced once (R59). -/
def originX (v : Byte) : Nat := v.toNat % Config.width

/-- The row a sprite starts at, reduced once (R59). -/
def originY (v : Byte) : Nat := v.toNat % Config.height

/-- Bit `7 - c` of a sprite byte: the pixel of its column `c`, the most significant bit first (R59). -/
def spriteBit (b : Byte) (c : Nat) : Bool := b.getLsbD (7 - c)

end Sys2Proof.Machine
end

