-- ==== Sys2Proof/Machine/Flags.lean ====
section
/-! DEFINITION. Every value an instruction leaves in `VF` as a flag (10_state.md R18), and the order of result and flag (R72). -/

namespace Sys2Proof.Machine

/-- A flag's value, 1 or 0. -/
def flagByte (b : Bool) : Byte := if b then 1 else 0

/-- `ADD Vx, Vy`: 1 iff "the wrapped sum is numerically less than the pre-operation value of the destination register" (R79). -/
def addFlag (a b : Byte) : Byte := flagByte (decide ((a + b).toNat < a.toNat))

/-- `SUB` and `SUBN`: 1 iff the minuend strictly exceeds the subtrahend (R80, R81; for `SUBN` C2 settles it so: log 31). -/
def subFlag (minuend subtrahend : Byte) : Byte := flagByte (decide (minuend.toNat > subtrahend.toNat))

/-- `SHR`: bit 0 of the pre-shift value (R82). -/
def shrFlag (v : Byte) : Byte := v &&& 1

/-- `SHL`: bit 7 of the pre-shift value (R83). -/
def shlFlag (v : Byte) : Byte := (v >>> 7) &&& 1

/-- `DrawFlag(old)` of R59, for a toggled pixel whose value was `old` (C3; the spec's own D6, log 13). -/
def drawFlag (mode : Config.DrawVfMode) (old : Bool) : Byte :=
  match mode with
  | .literal => 1
  | .newPixel => if old then 0 else 1

/-- `V[x] <- result`, then `VF <- flag`, so that with `x = 0xF` the flag is what stays (R72; the order is the spec's own D8,
log 15). -/
def writeResultFlag (x : Reg) (result flag : Byte) (s : State) : State := writeV flagReg flag (writeV x result s)

end Sys2Proof.Machine
end

