-- ==== Sys2Proof/Machine/Arithmetic.lean ====
section
/-! DEFINITION. Loads, adds, logic, subtractions and shifts on the general registers (42_arithmetic.md). Sources are read before
anything is written (R71). -/

namespace Sys2Proof.Machine

/-- `LD Vx, kk` (R73). -/
def execLdImm (x : Reg) (kk : Byte) (s : State) : Result := .next (advance (writeV x kk s))

/-- `ADD Vx, kk` (R74): wraps, and writes no flag (C5). -/
def execAddImm (x : Reg) (kk : Byte) (s : State) : Result := .next (advance (writeV x (readV s x + kk) s))

/-- `LD Vx, Vy` (R75). -/
def execLdReg (x y : Reg) (s : State) : Result := .next (advance (writeV x (readV s y) s))

/-- `OR Vx, Vy` (R76): `VF` is not reset (C5). -/
def execOr (x y : Reg) (s : State) : Result := .next (advance (writeV x (readV s x ||| readV s y) s))

/-- `AND Vx, Vy` (R77): `VF` is not reset (C5). -/
def execAnd (x y : Reg) (s : State) : Result := .next (advance (writeV x (readV s x &&& readV s y) s))

/-- `XOR Vx, Vy` (R78): `VF` is not reset (C5). -/
def execXor (x y : Reg) (s : State) : Result := .next (advance (writeV x (readV s x ^^^ readV s y) s))

/-- `ADD Vx, Vy` (R79). -/
def execAddReg (x y : Reg) (s : State) : Result :=
  let a := readV s x
  let b := readV s y
  .next (advance (writeResultFlag x (a + b) (addFlag a b) s))

/-- `SUB Vx, Vy` (R80): `V[x] - V[y]`. -/
def execSub (x y : Reg) (s : State) : Result :=
  let a := readV s x
  let b := readV s y
  .next (advance (writeResultFlag x (a - b) (subFlag a b) s))

/-- `SUBN Vx, Vy` (R81): `V[y] - V[x]`. -/
def execSubn (x y : Reg) (s : State) : Result :=
  let a := readV s x
  let b := readV s y
  .next (advance (writeResultFlag x (b - a) (subFlag b a) s))

/-- `SHR Vx, Vy` (R82). -/
def execShr (x y : Reg) (s : State) : Result :=
  let v := shiftOperand s x y
  .next (advance (writeResultFlag x (v >>> 1) (shrFlag v) s))

/-- `SHL Vx, Vy` (R83). -/
def execShl (x y : Reg) (s : State) : Result :=
  let v := shiftOperand s x y
  .next (advance (writeResultFlag x (v <<< 1) (shlFlag v) s))

end Sys2Proof.Machine
end

