-- ==== Sys2Proof/Machine/ControlFlow.lean ====
section
/-! DEFINITION. Return, jump, call and the register skips (41_control_flow.md). -/

namespace Sys2Proof.Machine

/-- `RET` (R61): the popped value is the call's own address, so 2 is added. With an empty stack, StackUnderflow (R98; the spec's
own D4, log 23). -/
def execRet (s : State) : Result :=
  match pop? s with
  | some (v, s1) => .next (setPc (v + 2) s1)
  | none => .next (raiseIn .ret .stackUnderflow none s)

/-- `JP nnn` (R62). -/
def execJp (nnn : Addr12) (s : State) : Result := .next (setPc (addrOf nnn) s)

/-- `CALL nnn` (R63): the call's own address is pushed. With a full stack, StackOverflow (R97; the spec's own D3, log 23). -/
def execCall (nnn : Addr12) (s : State) : Result :=
  match push? s.pc s with
  | some s1 => .next (setPc (addrOf nnn) s1)
  | none => .next (raiseIn (.call nnn) .stackOverflow none s)

/-- `SE Vx, kk` (R66). -/
def execSeImm (x : Reg) (kk : Byte) (s : State) : Result := .next (skipIf (readV s x == kk) s)

/-- `SNE Vx, kk` (R67). -/
def execSneImm (x : Reg) (kk : Byte) (s : State) : Result := .next (skipIf (readV s x != kk) s)

/-- `SE Vx, Vy` (R68). -/
def execSeReg (x y : Reg) (s : State) : Result := .next (skipIf (readV s x == readV s y) s)

/-- `SNE Vx, Vy` (R69). -/
def execSneReg (x y : Reg) (s : State) : Result := .next (skipIf (readV s x != readV s y) s)

end Sys2Proof.Machine
end

