-- ==== Sys2Proof/Machine/Graphics.lean ====
section
/-! DEFINITION. `CLS` and `DRW` (40_graphics.md). -/

namespace Sys2Proof.Machine

/-- `CLS` (R58). -/
def execCls (s : State) : Result := .next (advance (clearScreen s))

/-- The innermost body of R59: the sprite's bit for row `r`, column `c`, drawn from origin (`x0`, `y0`). A pixel off the grid is
skipped (clip: the spec's own D5, log 14). -/
def drawPixel (x0 y0 r : Nat) (b : Byte) (c : Nat) (s : State) : State :=
  if spriteBit b c then
    if h : x0 + c ≤ 63 ∧ y0 + r ≤ 31 then
      let px : Fin 64 := ⟨x0 + c, by omega⟩
      let py : Fin 32 := ⟨y0 + r, by omega⟩
      let old := pixel s px py
      setPixel px py (!old) (writeV flagReg (drawFlag s.params.drawVfMode old) s)
    else s
  else s

/-- One row of the sprite: the byte at `I + r`, its columns left to right (R59, R60). -/
def drawRow (x0 y0 r : Nat) (s : State) : State := forRange 8 (drawPixel x0 y0 r (memRead s (baseI s + r))) s

/-- The `n` rows of the sprite, top to bottom (R59, R60). -/
def drawSprite (x0 y0 n : Nat) (s : State) : State := forRange n (drawRow x0 y0) s

/-- `DRW Vx, Vy, n` (R59). The origin is read before any write; with `n = 0` there is no access and so no fault (the spec's own
D14, log 20). -/
def execDrw (x y : Reg) (n : Nibble) (s : State) : Result :=
  let draw := fun s => advance (drawSprite (originX (readV s x)) (originY (readV s y)) n.toNat s)
  if n = 0 then .next (draw s)
  else .next (withRange (.drw x y n) (baseI s) (baseI s + n.toNat - 1) draw s)

end Sys2Proof.Machine
end

