-- ==== Sys2Proof/Machine/IndexMemory.lean ====
section
/-! DEFINITION. The index register, and stores and loads through it (43_index_memory.md). None of the stores and loads changes `I`
(the spec's own D9, log 16). -/

namespace Sys2Proof.Machine

/-- `LD I, nnn` (R84). -/
def execLdI (nnn : Addr12) (s : State) : Result := .next (advance (setI (addrOf nnn) s))

/-- `ADD I, Vx` (R85): wraps at 16 bits, no flag, no fault (the spec's own D13, log 20). -/
def execAddI (x : Reg) (s : State) : Result := .next (advance (setI (s.I + (readV s x).zeroExtend 16) s))

/-- `LD F, Vx` (R86). -/
def execLdF (x : Reg) (s : State) : Result := .next (advance (setI (glyphAddr (readV s x)) s))

/-- `LD B, Vx` (R87): the three decimal digits at `I`, `I + 1`, `I + 2`. -/
def execLdB (x : Reg) (s : State) : Result :=
  .next (withRange (.ldB x) (baseI s) (baseI s + 2)
    (fun s => advance (memWriteList (baseI s) (bcdDigits (readV s x)) s)) s)

/-- `MemWrite(I + k, 1, V[k])` (R88). -/
def storeReg (k : Nat) (s : State) : State := memWrite (baseI s + k) (readV s (regOf k)) s

/-- `V[k] <- MemRead(I + k, 1)` (R89). -/
def loadReg (k : Nat) (s : State) : State := writeV (regOf k) (memRead s (baseI s + k)) s

/-- `V[0]`..`V[count-1]` to ascending addresses from `I`. -/
def storeRegs (count : Nat) (s : State) : State := forRange count storeReg s

/-- `V[0]`..`V[count-1]` from ascending addresses from `I`. -/
def loadRegs (count : Nat) (s : State) : State := forRange count loadReg s

/-- `LD [I], Vx` (R88): the registers up to and including `V[x]`. -/
def execStRange (x : Reg) (s : State) : Result :=
  .next (withRange (.stRange x) (baseI s) (baseI s + x.toNat)
    (fun s => advance (storeRegs (x.toNat + 1) s)) s)

/-- `LD Vx, [I]` (R89): the registers up to and including `V[x]`. -/
def execLdRange (x : Reg) (s : State) : Result :=
  .next (withRange (.ldRange x) (baseI s) (baseI s + x.toNat)
    (fun s => advance (loadRegs (x.toNat + 1) s)) s)

end Sys2Proof.Machine
end

