-- ==== Sys2Proof/Machine/KeysTimers.lean ====
section
/-! DEFINITION. The key skips and the delay-timer transfers (44_input_timers.md). -/

namespace Sys2Proof.Machine

/-- `SKP Vx` (R90). -/
def execSkp (x : Reg) (s : State) : Result := .next (skipIf (keyPressed s (keyOf (readV s x))) s)

/-- `SKNP Vx` (R91). -/
def execSknp (x : Reg) (s : State) : Result := .next (skipIf (!keyPressed s (keyOf (readV s x))) s)

/-- `LD Vx, DT` (R92): in a cycle, the value after that cycle's decrement. -/
def execLdVDt (x : Reg) (s : State) : Result := .next (advance (writeV x s.dt s))

/-- `LD DT, Vx` (R93). -/
def execLdDtV (x : Reg) (s : State) : Result := .next (advance (setDt (readV s x) s))

end Sys2Proof.Machine
end

