-- ==== Sys2Proof/Machine/Cycle.lean ====
section
/-! DEFINITION. The cycle driver (30_encoding.md R56). -/

namespace Sys2Proof.Machine

/-- Step (c): decode the fetched word and dispatch it; a word that matches no row raises InvalidOpcode (R52, R96). -/
def runWord (w : Word) (s : State) : Result :=
  match decodeWord w with
  | some i => exec i s
  | none => .next (raiseFault .invalidOpcode (some w) none s)

/-- Steps (b) and (c): a fetch that leaves memory raises MemoryOutOfRange with no word (R40; the spec's own D12, log 19). -/
def fetchAndRun (s : State) : Result :=
  match fetch s with
  | .ok w => runWord w s
  | .error a => .next (raiseFault .memoryOutOfRange none (some a) s)

/-- Step (d), which is performed after a fault too (R56, R100; the spec's own D24, log 26). -/
def finishCycle : Result → Result
  | .next s => .next (endCycle s)
  | .fault r => .fault r
  | .refused r => .refused r

/-- `Cycle(K)` of R56. On a halted machine nothing changes (R102; the spec's own D20, log 3). -/
def cycle (K : KeySet) (s : State) : Result :=
  if s.halt.isSome then .next s else finishCycle (fetchAndRun (timerTick (supplyKeys K s)))

/-- Cycles one after another, each with the key set the host supplies for it. -/
def cycles : List KeySet → State → Result
  | [], s => .next s
  | K :: rest, s =>
    match cycle K s with
    | .next t => cycles rest t
    | .fault r => .fault r
    | .refused r => .refused r

end Sys2Proof.Machine
end

