-- ==== Sys2Proof/Machine/Step.lean ====
section
/-! DEFINITION. One step of the machine is one cycle (00_scope.md R7). -/

namespace Sys2Proof.Machine

/-- One cycle, with the key set that stands in `keys`: what the host has supplied for it (R110; log 4). -/
def step (s : State) : Host.Outcome State Fault Refusal := cycle s.keys s

/-- The machine whose very next step runs the word numbered as opcode_table.json numbers it (log 27). -/
def State.withFetchWord (s : State) (nbits w : Nat) : State := placeWord (tableWord nbits w) s

end Sys2Proof.Machine
end

