-- ==== Sys2Proof/Machine/HostInterface.lean ====
section
/-! DEFINITION. What the core offers the host (60_exceptions.md section 5; 70_reset_and_hazards.md R117): construction, the
read-only view, the outcome of a cycle, and the key symbols. -/

namespace Sys2Proof.Machine

/-- `Construct(B)` of R117, with the parameters of R9 beside the image: an image above 3584 bytes is rejected and no machine is
built (the spec's own D15, log 21). -/
def construct (params : Config.Params) (image : List Byte) : Option State :=
  if imageFits image then
    some (memWriteList Config.programBase image { State.reset with params := params })
  else none

/-- The outcome a cycle returns to the host, read off the state it left: "completed, or the fault record" (R111, C4). On a halted
machine it is the recorded fault again (R102). -/
def cycleOutcome (s : State) : CycleOutcome :=
  match s.halt with
  | none => .completed
  | some r => .faulted r

/-- What the host may read between cycles (R111, R113). -/
structure HostView where
  framebuffer : Framebuffer
  delay : Byte
  sound : Byte
  outcome : CycleOutcome
deriving DecidableEq, Repr

/-- The read-only snapshot of R111. -/
def hostView (s : State) : HostView :=
  { framebuffer := s.fb, delay := s.dt, sound := s.st, outcome := cycleOutcome s }

/-- The symbol of a physical key (R112): '0'–'9' are 0x0–0x9 and 'A'–'F' are 0xA–0xF. -/
def keySymbol (c : Char) : Option Nibble :=
  if 48 ≤ c.toNat ∧ c.toNat ≤ 57 then some (BitVec.ofNat 4 (c.toNat - 48))
  else if 65 ≤ c.toNat ∧ c.toNat ≤ 70 then some (BitVec.ofNat 4 (c.toNat - 65 + 10))
  else none

/-- The set of the pressed symbols (R110). -/
def keySetOf : List Nibble → KeySet
  | [] => noKeys
  | k :: rest => (keySetOf rest).set k.toNat true (Reg.toNat_lt k)

end Sys2Proof.Machine
end

