-- ==== Sys2Proof/Safety.lean ====
section
/-! DEFINITION. The terms in which claims about the machine are stated: which part of the state a step may change, which registers
an instruction reads and writes, where its pc goes, which pixels a sprite covers, and what every state of a run satisfies. Nothing
here defines what the machine does. -/

namespace Sys2Proof.Safety

open Sys2Proof.Machine

/-- A run is safe while no fault has occurred (10_state.md R29). -/
abbrev Running (s : State) : Prop := s.halt = none

/-- The parts of the state (10_state.md, opening). -/
inductive Part
  | mem | V | I | pc | stack | sp | fb | dt | st | keys | halt | params
deriving DecidableEq, Repr

/-- A part is the same before and after; memory and the framebuffer through the model's read of one byte and one pixel. -/
def Part.Same : Part → State → State → Prop
  | .mem, s, t => ∀ a, memRead t a = memRead s a
  | .V, s, t => ∀ r, readV t r = readV s r
  | .I, s, t => t.I = s.I
  | .pc, s, t => t.pc = s.pc
  | .stack, s, t => t.stack = s.stack
  | .sp, s, t => t.sp = s.sp
  | .fb, s, t => ∀ px py, pixel t px py = pixel s px py
  | .dt, s, t => t.dt = s.dt
  | .st, s, t => t.st = s.st
  | .keys, s, t => t.keys = s.keys
  | .halt, s, t => t.halt = s.halt
  | .params, s, t => t.params = s.params

/-- The frame: every part but those named is the same. -/
def KeepsAllBut (changed : List Part) (s t : State) : Prop := ∀ p : Part, p ∉ changed → p.Same s t

/-- A function applied to the next state of a result. -/
def mapNext (f : State → State) : Result → Result
  | .next s => .next (f s)
  | .fault r => .fault r
  | .refused r => .refused r

/-- The instruction a running machine's next cycle dispatches, if the fetch and the decode succeed. -/
def nextInstr (s : State) : Option Instr :=
  match fetch s with
  | .ok w => decodeWord w
  | .error _ => none

/-- The general registers an instruction reads (10_state.md R19). -/
def Reads (src : Config.ShiftSource) : Instr → Reg → Prop
  | .seImm x _, r | .sneImm x _, r | .addImm x _, r => r = x
  | .seReg x y, r | .sneReg x y, r => r = x ∨ r = y
  | .ldReg _ y, r => r = y
  | .or x y, r | .and x y, r | .xor x y, r => r = x ∨ r = y
  | .addReg x y, r | .sub x y, r | .subn x y, r => r = x ∨ r = y
  | .shr x y, r | .shl x y, r => r = (match src with | .vx => x | .vy => y)
  | .drw x y _, r => r = x ∨ r = y
  | .skp x, r | .sknp x, r | .ldDtV x, r | .addI x, r | .ldF x, r | .ldB x, r => r = x
  | .stRange x, r => r.toNat ≤ x.toNat
  | .cls, _ | .ret, _ | .jp _, _ | .call _, _ | .ldImm _ _, _ | .ldI _, _ | .ldVDt _, _ | .ldRange _, _ => False

/-- The general registers an instruction may write (10_state.md R19). -/
def Writes : Instr → Reg → Prop
  | .ldImm x _, r | .addImm x _, r | .ldReg x _, r | .or x _, r | .and x _, r | .xor x _, r | .ldVDt x, r => r = x
  | .addReg x _, r | .sub x _, r | .subn x _, r | .shr x _, r | .shl x _, r => r = x ∨ r = flagReg
  | .drw _ _ _, r => r = flagReg
  | .ldRange x, r => r.toNat ≤ x.toNat
  | .cls, _ | .ret, _ | .jp _, _ | .call _, _ | .seImm _ _, _ | .sneImm _ _, _ | .seReg _ _, _ | .sneReg _ _, _
  | .ldI _, _ | .skp _, _ | .sknp _, _ | .ldDtV _, _ | .addI _, _ | .ldF _, _ | .ldB _, _ | .stRange _, _ => False

/-- The instructions that write `VF` as a side effect (10_state.md R18). -/
def FlagWriter : Instr → Prop
  | .addReg _ _ | .sub _ _ | .subn _ _ | .shr _ _ | .shl _ _ | .drw _ _ _ => True
  | _ => False

/-- The instructions whose destination is a general register, and that destination is `r` (10_state.md R19). -/
def Destination : Instr → Reg → Prop
  | .ldImm x _, r | .addImm x _, r | .ldReg x _, r | .or x _, r | .and x _, r | .xor x _, r | .ldVDt x, r => r = x
  | .addReg x _, r | .sub x _, r | .subn x _, r | .shr x _, r | .shl x _, r => r = x
  | .ldRange x, r => r.toNat ≤ x.toNat
  | _, _ => False

/-- Where a skip goes (R65). -/
def skipTo (p : Word) (c : Prop) [Decidable c] : Word := if c then p + 4 else p + 2

/-- The next pc of an instruction that raises no fault (10_state.md R22). -/
def nextPc (s : State) : Instr → Word
  | .seImm x kk => skipTo s.pc (readV s x = kk)
  | .sneImm x kk => skipTo s.pc (readV s x ≠ kk)
  | .seReg x y => skipTo s.pc (readV s x = readV s y)
  | .sneReg x y => skipTo s.pc (readV s x ≠ readV s y)
  | .skp x => skipTo s.pc (s.keys[(readV s x).toNat % 16]'(by omega) = true)
  | .sknp x => skipTo s.pc (s.keys[(readV s x).toNat % 16]'(by omega) = false)
  | .jp nnn | .call nnn => BitVec.ofNat 16 nnn.toNat
  | .ret => if h : 0 < s.sp.val then s.stack[s.sp.val - 1]'(by omega) + 2 else s.pc
  | _ => s.pc + 2

/-- The last address an instruction accesses through `I`, if it accesses memory (R59, R87, R88, R89). -/
def lastAccess (s : State) : Instr → Option Nat
  | .drw _ _ n => if n = 0 then none else some (s.I.toNat + n.toNat - 1)
  | .ldB _ => some (s.I.toNat + 2)
  | .stRange x | .ldRange x => some (s.I.toNat + x.toNat)
  | _ => none

/-- The meaning of `i`, whose word is `w`, raises MemoryOutOfRange with nothing else written (R99, R101). -/
def RaisesOutOfRange (i : Instr) (w : Word) (s : State) : Prop :=
  ∃ t, exec i s = .next t ∧ t.halt = some ⟨.memoryOutOfRange, s.pc, some w, some (max s.I.toNat 0x1000)⟩ ∧
    KeepsAllBut [.halt] s t

/-- A cycle whose instruction, or fetch, raised a fault left everything as it was but the record, the two timers' decrement and the
discarded keys (R100, R101). -/
def OnlyFaulted (s t : State) : Prop :=
  KeepsAllBut [.halt, .keys, .dt, .st] s t ∧ t.dt.toNat = s.dt.toNat - 1 ∧ t.st.toNat = s.st.toNat - 1 ∧
    ∀ k, keyPressed t k = false

/-- Whether a sprite of `n` rows at the origin `V[x]`, `V[y]`, read from `I`, has its bit set at a pixel of the grid (R59): the
pixel lies in the sprite's eight columns and `n` rows, nothing wrapped, and the bit of that row's byte is 1. -/
def Covers (s : State) (x y : Reg) (n : Nibble) (px : Fin 64) (py : Fin 32) : Prop :=
  let x0 := (readV s x).toNat % 64
  let y0 := (readV s y).toNat % 32
  x0 ≤ px.val ∧ px.val < x0 + 8 ∧ y0 ≤ py.val ∧ py.val < y0 + n.toNat ∧
    (memRead s (s.I.toNat + (py.val - y0))).getLsbD (7 - (px.val - x0)) = true

/-- The order of R60: rows top to bottom, columns left to right. -/
def DrawnNoLaterThan (px : Fin 64) (py : Fin 32) (qx : Fin 64) (qy : Fin 32) : Prop := py < qy ∨ (py = qy ∧ px ≤ qx)

/-- The shape of a fault record (R29, R95): `addr` for MemoryOutOfRange alone, and above memory; `word` absent for a fetch fault
alone. -/
def FaultRecord.WellShaped (r : FaultRecord) : Prop :=
  (r.addr.isSome ↔ r.kind = .memoryOutOfRange) ∧ (r.word = none → r.kind = .memoryOutOfRange ∧ 0xFFE < r.pc.toNat) ∧
    (∀ a, r.addr = some a → 0x1000 ≤ a)

/-- What every state of a run satisfies. -/
structure Inv (s : State) : Prop where
  /-- Memory is in canonical form, all its addresses below 4096 (R31). -/
  mem : Memory.wf s.mem = true
  /-- The pc never passes 0x1002, so it never wraps (R23). -/
  pc : s.pc.toNat ≤ 0x1002
  /-- Every occupied slot holds the address of a call that executed (R23, R63). -/
  stack : ∀ j : Fin 16, j.val < s.sp.val → (s.stack[j.val]).toNat ≤ 0xFFE
  /-- The sound timer is 0 for the life of the machine (R27). -/
  sound : s.st = 0
  /-- A fault record has the shape of its kind, and the pc is where the fault was (R29, R101). -/
  fault : ∀ r, s.halt = some r → r.pc = s.pc ∧ FaultRecord.WellShaped r

end Sys2Proof.Safety
end

