-- ==== Sys2Proof/Certificates/Slice0/Obligations.lean ====
section
/-! DEFINITION. The statements for the provers: what the spec's numbered rules say the machine does. Each docstring names the rule it
formalises, and every clause that rests on a choice, with its log entry. -/

open Sys2Proof Sys2Proof.Machine Sys2Proof.Safety

/-- Every instruction survives encoding: no bit of an encoding is dropped (R46, R49–R51). The opcode numbers are the spec's own, from general knowledge (log 1). -/
def Obligations.DecodeOfEncodeIsIdentity : Prop :=
  ∀ (i : Instr) (rest : List Byte), i.WellFormed → decode (encode i ++ rest) = .ok (i, rest)

/-- The other direction: each instruction has one word, so the word the model records in a fault is the fetched word (log 6). -/
def Obligations.EncodeOfDecodeIsIdentity : Prop :=
  ∀ (w : Word) (i : Instr), decodeWord w = some i → encodeWord i = w

/-- "A word matches a row when (w & mask) = match" (R50), and the match is exact on every fixed bit (R51; the spec's own D2, log 22). -/
def Obligations.DecodingFollowsTheOpcodeMap : Prop :=
  ∀ (w : Word) (r : OpcodeRow), r ∈ opcodeRows →
    (r.matchesWord w ↔ ∃ i, decodeWord w = some i ∧ i.rowNumber = r.number)

/-- "No two rows match the same word" (R50). -/
def Obligations.NoTwoRowsMatchOneWord : Prop :=
  ∀ (w : Word) (r q : OpcodeRow), r ∈ opcodeRows → q ∈ opcodeRows → r.matchesWord w → q.matchesWord w → r = q

/-- The invalid encodings of R53 (the spec's own D1 and D2, log 22), each in naturals over the word's number; the counts of R53's table are not claimed. -/
def Obligations.InvalidWordsByLeadingNibble : Prop :=
  ∀ w : Word, decodeWord w = none ↔
    (w.toNat / 0x1000 = 0x0 ∧ w.toNat ≠ 0x00E0 ∧ w.toNat ≠ 0x00EE) ∨
    (w.toNat / 0x1000 = 0x5 ∧ w.toNat % 16 ≠ 0) ∨
    (w.toNat / 0x1000 = 0x8 ∧ w.toNat % 16 ∈ [0x8, 0x9, 0xA, 0xB, 0xC, 0xD, 0xF]) ∨
    (w.toNat / 0x1000 = 0x9 ∧ w.toNat % 16 ≠ 0) ∨
    w.toNat / 0x1000 = 0xB ∨ w.toNat / 0x1000 = 0xC ∨
    (w.toNat / 0x1000 = 0xE ∧ w.toNat % 256 ∉ [0x9E, 0xA1]) ∨
    (w.toNat / 0x1000 = 0xF ∧ w.toNat % 256 ∉ [0x07, 0x15, 0x1E, 0x29, 0x33, 0x55, 0x65])

/-- A sanity statement: the decoder vectors of 95_test_vectors.md L2.1 and the source's one example, 6A05. -/
def Obligations.WrittenOutWordsDecode : Prop :=
  decodeWord 0x6A05 = some (.ldImm 0xA 0x05) ∧ decodeWord 0xD12F = some (.drw 1 2 15) ∧
    decodeWord 0x8AB6 = some (.shr 0xA 0xB) ∧ decodeWord 0x8ABE = some (.shl 0xA 0xB) ∧
    decodeWord 0xF165 = some (.ldRange 1) ∧ decodeWord 0x00E0 = some .cls ∧ decodeWord 0x00EE = some .ret ∧
    decodeWord 0x00E1 = none ∧ decodeWord 0x5121 = none ∧ decodeWord 0xC0FF = none ∧ decodeWord 0xF018 = none

/-- R40, with no alignment (R39). The check on the fetch is the spec's own D12 (log 19). -/
def Obligations.FetchReadsTheBigEndianWord : Prop :=
  ∀ s : State,
    (s.pc.toNat ≤ 0xFFE → ∃ w, fetch s = .ok w ∧
      w.toNat = 256 * (memRead s s.pc.toNat).toNat + (memRead s (s.pc.toNat + 1)).toNat) ∧
    (0xFFE < s.pc.toNat → fetch s = .error (max s.pc.toNat 0x1000))

/-- Steps (a) to (d) of R56, for a fetch and a decode that succeed. The step adds the timer tick before the meaning and the emptied key set after it, and moves no pc. -/
def Obligations.StepRunsTheDecodedInstruction : Prop :=
  ∀ (s : State) (i : Instr), Running s → s.pc.toNat ≤ 0xFFE →
    decode [memRead s s.pc.toNat, memRead s (s.pc.toNat + 1)] = .ok (i, []) →
    ∃ t, exec i (timerTick s) = .next t ∧ step s = .next (endCycle t)

/-- The model's own probe (log 27): it stands for a load from outside. -/
def Obligations.PlacedWordIsTheNextInstruction : Prop :=
  ∀ (s : State) (w : Nat), w < 65536 →
    Running (s.withFetchWord 16 w) ∧ fetch (s.withFetchWord 16 w) = .ok (BitVec.ofNat 16 w) ∧
      nextInstr (s.withFetchWord 16 w) = decodeTableWord 16 w

/-- How the per-cycle input of R110 reaches `step`: the model's choice (log 4). -/
def Obligations.CycleIsAStepWithTheSuppliedKeys : Prop :=
  ∀ (K : KeySet) (s : State), Running s → cycle K s = step (supplyKeys K s)

/-- There is no stop in the model: faults are taken (log 2, the model's reading of R100 and R102). -/
def Obligations.EveryStepAnswersNext : Prop :=
  (∀ s : State, ∃ t, step s = .next t) ∧ ∀ (i : Instr) (s : State), ∃ t, exec i s = .next t

/-- R102 (the spec's own D20, log 3). -/
def Obligations.HaltedMachineIsFrozen : Prop :=
  ∀ (s : State) (K : KeySet) (r : FaultRecord), s.halt = some r →
    step s = .next s ∧ cycle K s = .next s ∧ cycleOutcome s = .faulted r

/-- R96, R100, R101. The last two clauses rest on the spec's own D24 and D20 (log 26, log 3). -/
def Obligations.InvalidOpcodeHalts : Prop :=
  ∀ (s : State) (w : Word), Running s → fetch s = .ok w → decodeWord w = none →
    ∃ t, step s = .next t ∧ t.halt = some ⟨.invalidOpcode, s.pc, some w, none⟩ ∧ t.pc = s.pc ∧
      cycleOutcome t = .faulted ⟨.invalidOpcode, s.pc, some w, none⟩ ∧ OnlyFaulted s t ∧ step t = .next t

/-- R40, R99, and R100, R101 for what the fault leaves (the spec's own D12, D11 and D24: log 19, log 18, log 26). -/
def Obligations.FetchOutsideMemoryHalts : Prop :=
  ∀ s : State, Running s → 0xFFE < s.pc.toNat →
    ∃ t, step s = .next t ∧
      t.halt = some ⟨.memoryOutOfRange, s.pc, none, some (max s.pc.toNat 0x1000)⟩ ∧ OnlyFaulted s t

/-- R97, R98 (the spec's own D3, D4, log 23). Where these two instructions trap; where they complete is stated apart. -/
def Obligations.StackFaultsWriteNothing : Prop :=
  ∀ s : State,
    (∀ nnn : Addr12, s.sp.val = 16 → ∃ t, exec (.call nnn) s = .next t ∧
      t.halt = some ⟨.stackOverflow, s.pc, some (0x2#4 ++ nnn), none⟩ ∧ KeepsAllBut [.halt] s t) ∧
    (s.sp.val = 0 → ∃ t, exec .ret s = .next t ∧
      t.halt = some ⟨.stackUnderflow, s.pc, some 0x00EE#16, none⟩ ∧ KeepsAllBut [.halt] s t)

/-- R36, R99, R101 (the spec's own D11, D13, log 18, log 20). The words are written out from R50. -/
def Obligations.AccessesOutsideMemoryWriteNothing : Prop :=
  ∀ (s : State) (x y : Reg) (n : Nibble),
    (n ≠ 0 → 0xFFF < s.I.toNat + n.toNat - 1 → RaisesOutOfRange (.drw x y n) (0xD#4 ++ x ++ y ++ n) s) ∧
    (0xFFF < s.I.toNat + 2 → RaisesOutOfRange (.ldB x) (0xF#4 ++ x ++ 0x33#8) s) ∧
    (0xFFF < s.I.toNat + x.toNat → RaisesOutOfRange (.stRange x) (0xF#4 ++ x ++ 0x55#8) s) ∧
    (0xFFF < s.I.toNat + x.toNat → RaisesOutOfRange (.ldRange x) (0xF#4 ++ x ++ 0x65#8) s)

/-- "There is no other fault" (R95), over all instructions. Codes and fields: the spec's own D23, D26 (log 25). -/
def Obligations.FaultsAreThoseListed : Prop :=
  ∀ (s t : State) (r : FaultRecord), Running s → step s = .next t → t.halt = some r →
    r.pc = s.pc ∧ (r.addr.isSome ↔ r.kind.code = 4) ∧
    ((0xFFE < s.pc.toNat ∧ r.kind.code = 4 ∧ r.word = none) ∨
      ∃ w, fetch s = .ok w ∧ r.word = some w ∧
        ((decodeWord w = none ∧ r.kind.code = 1) ∨
          (∃ nnn, decodeWord w = some (.call nnn) ∧ s.sp.val = 16 ∧ r.kind.code = 2) ∨
          (decodeWord w = some .ret ∧ s.sp.val = 0 ∧ r.kind.code = 3) ∨
          (∃ i a, decodeWord w = some i ∧ lastAccess s i = some a ∧ 0xFFF < a ∧ r.kind.code = 4)))

/-- R101, over all instructions (the spec's own D11 and D24, log 18, log 26). -/
def Obligations.FaultsArePrecise : Prop :=
  ∀ s t : State, Running s → step s = .next t → t.halt ≠ none → OnlyFaulted s t

/-- R107: once a cycle, never below zero, whatever the instruction, and before it (R56). What `LD DT, Vx` leaves is R93; that `LD Vx, DT` reads
the decremented value is R92's corner case, the spec's own derivation from R56 and R107. -/
def Obligations.TimersTickEveryCycle : Prop :=
  ∀ s t : State, Running s → step s = .next t →
    t.st.toNat = s.st.toNat - 1 ∧
    (∀ x, nextInstr s = some (.ldDtV x) → t.dt = readV s x) ∧
    ((∀ x, nextInstr s ≠ some (.ldDtV x)) → t.dt.toNat = s.dt.toNat - 1) ∧
    (∀ x, nextInstr s = some (.ldVDt x) → (readV t x).toNat = s.dt.toNat - 1)

/-- R22, row by row (`nextPc` of Safety.lean), over all thirty instructions. -/
def Obligations.PcFollowsTheTable : Prop :=
  ∀ (s : State) (i : Instr), Running s →
    ∃ t, exec i s = .next t ∧ t.pc = if t.halt = none then nextPc s i else s.pc

/-- R18 (C5): no other instruction writes `VF` unless its destination is `VF` itself. What the six write is stated apart. -/
def Obligations.OnlyFlagWritersChangeVf : Prop :=
  ∀ (i : Instr) (s t : State), exec i s = .next t → ¬ FlagWriter i → ¬ Destination i flagReg →
    readV t flagReg = readV s flagReg

/-- The write column of R19, over all instructions. -/
def Obligations.OnlyListedRegistersAreWritten : Prop :=
  ∀ (i : Instr) (s t : State) (r : Reg), exec i s = .next t → ¬ Writes i r → readV t r = readV s r

/-- The read column of R19, as noninterference, for both values of SHIFT_SOURCE. -/
def Obligations.UnreadRegistersDoNotMatter : Prop :=
  ∀ (i : Instr) (s t : State) (r : Reg) (v : Byte), ¬ Reads s.params.shiftSource i r → exec i s = .next t →
    ∃ u, exec i (writeV r v s) = .next u ∧ KeepsAllBut [.V] t u ∧ ∀ q, q ≠ r → readV u q = readV t q

/-- R20's lists of readers and writers of `I` (D9: log 16). -/
def Obligations.IndexRegisterUsers : Prop :=
  ∀ (s : State) (a : Word),
    (∀ i : Instr, (∀ x, i ≠ .addI x) → (∀ nnn, i ≠ .ldI nnn) → (∀ x, i ≠ .ldF x) → (∀ x y n, i ≠ .drw x y n) →
      (∀ x, i ≠ .ldB x) → (∀ x, i ≠ .stRange x) → (∀ x, i ≠ .ldRange x) →
      exec i (setI a s) = mapNext (setI a) (exec i s)) ∧
    (∀ nnn, exec (.ldI nnn) (setI a s) = exec (.ldI nnn) s) ∧ (∀ x, exec (.ldF x) (setI a s) = exec (.ldF x) s) ∧
    (∀ (i : Instr) (t : State), exec i s = .next t → (∀ x, i ≠ .addI x) → (∀ nnn, i ≠ .ldI nnn) → (∀ x, i ≠ .ldF x) →
      t.I = s.I)

/-- R24 and R26: no other instruction reads or writes them. -/
def Obligations.StackAndScreenUsers : Prop :=
  ∀ s : State,
    (∀ (i : Instr) (k : Vector Word 16) (p : Fin 17), (∀ nnn, i ≠ .call nnn) → i ≠ .ret →
      exec i { s with stack := k, sp := p } = mapNext (fun t => { t with stack := k, sp := p }) (exec i s)) ∧
    (∀ (i : Instr) (f : Framebuffer), i ≠ .cls → (∀ x y n, i ≠ .drw x y n) →
      exec i { s with fb := f } = mapNext (fun t => { t with fb := f }) (exec i s))

/-- R27, R94 (the spec's own D1, log 22). -/
def Obligations.TimerUsers : Prop :=
  ∀ (s : State) (v : Byte),
    (∀ i : Instr, exec i { s with st := v } = mapNext (fun t => { t with st := v }) (exec i s)) ∧
    (∀ i : Instr, (∀ x, i ≠ .ldVDt x) → (∀ x, i ≠ .ldDtV x) →
      exec i (setDt v s) = mapNext (setDt v) (exec i s)) ∧
    (∀ x, exec (.ldDtV x) (setDt v s) = exec (.ldDtV x) s) ∧
    (∀ x t, exec (.ldVDt x) s = .next t → t.dt = s.dt)

/-- R28, R124 (D24: log 26). -/
def Obligations.KeysCountInOneCycleAlone : Prop :=
  ∀ (s : State) (K J : KeySet), Running s →
    ((∀ x, nextInstr s ≠ some (.skp x)) → (∀ x, nextInstr s ≠ some (.sknp x)) → cycle K s = cycle J s) ∧
    ∀ t, cycle K s = .next t → ∀ k, keyPressed t k = false

/-- R33's last column and R32 for the writers; R36 and R37, which list every access, for the readers. That a faulting store writes no byte is the
spec's own D11 (log 18). -/
def Obligations.MemoryUsers : Prop :=
  ∀ s : State,
    (∀ (i : Instr) (m : Memory), (∀ x y n, i ≠ .drw x y n) → (∀ x, i ≠ .ldB x) → (∀ x, i ≠ .stRange x) →
      (∀ x, i ≠ .ldRange x) → exec i { s with mem := m } = mapNext (fun t => { t with mem := m }) (exec i s)) ∧
    (∀ (i : Instr) (t : State), exec i s = .next t → (∀ x, i ≠ .ldB x) → (∀ x, i ≠ .stRange x) →
      ∀ a, memRead t a = memRead s a) ∧
    (∀ (x : Reg) (m : Memory), ∃ t u, exec (.ldB x) s = .next t ∧ exec (.ldB x) { s with mem := m } = .next u ∧
      KeepsAllBut [.mem] t u ∧
      ∀ a, memRead u a =
        if s.I.toNat + 2 ≤ 0xFFF ∧ s.I.toNat ≤ a ∧ a ≤ s.I.toNat + 2 then memRead t a else Memory.read m a) ∧
    (∀ (x : Reg) (m : Memory), ∃ t u, exec (.stRange x) s = .next t ∧ exec (.stRange x) { s with mem := m } = .next u ∧
      KeepsAllBut [.mem] t u ∧
      ∀ a, memRead u a =
        if s.I.toNat + x.toNat ≤ 0xFFF ∧ s.I.toNat ≤ a ∧ a ≤ s.I.toNat + x.toNat then memRead t a else Memory.read m a)

/-- About the model's own field (log 5): the parameters are inputs of construction. -/
def Obligations.ParametersNeverChange : Prop :=
  ∀ s t : State, step s = .next t → t.params = s.params

/-- R58. -/
def Obligations.ClearScreen : Prop :=
  decodeWord 0x00E0 = some .cls ∧
    ∀ s : State, ∃ t, exec .cls s = .next t ∧ (∀ px py, pixel t px py = false) ∧ t.pc = s.pc + 2 ∧
      KeepsAllBut [.fb, .pc] s t

/-- R62. That a fetch at 0xFFF faults (the last clause) is the spec's own D12 (log 19). -/
def Obligations.JumpSetsThePc : Prop :=
  ∀ (nnn : Addr12) (s : State), decodeWord (0x1#4 ++ nnn) = some (.jp nnn) ∧
    ∃ t, exec (.jp nnn) s = .next t ∧ t.pc.toNat = nnn.toNat ∧ KeepsAllBut [.pc] s t ∧
      (nnn = 0xFFF → fetch t = .error 0x1000)

/-- R63 for a free slot; the representation of `sp` is the spec's own D19 (log 11). -/
def Obligations.CallPushesItsOwnAddress : Prop :=
  ∀ (nnn : Addr12) (s : State), s.sp.val < 16 →
    ∃ t, exec (.call nnn) s = .next t ∧ t.sp.val = s.sp.val + 1 ∧ t.pc.toNat = nnn.toNat ∧
      (∀ j : Fin 16, t.stack[j.val] = if j.val = s.sp.val then s.pc else s.stack[j.val]) ∧
      KeepsAllBut [.stack, .sp, .pc] s t

/-- R61 for an occupied slot; `sp` as D19 has it (log 11). -/
def Obligations.ReturnPops : Prop :=
  ∀ (s : State) (h : 0 < s.sp.val),
    ∃ t, exec .ret s = .next t ∧ t.sp.val = s.sp.val - 1 ∧ t.pc = s.stack[s.sp.val - 1]'(by omega) + 2 ∧
      KeepsAllBut [.sp, .pc] s t

/-- R64, "followed immediately", as two steps of the machine (the rule is the spec's own derivation). -/
def Obligations.CallThenReturnComesBack : Prop :=
  ∀ (s : State) (nnn : Addr12), Running s → s.sp.val < 16 → s.pc.toNat ≤ 0xFFE → nextInstr s = some (.call nnn) →
    nnn.toNat ≤ 0xFFE → memRead s nnn.toNat = 0x00 → memRead s (nnn.toNat + 1) = 0xEE →
    ∃ t u, step s = .next t ∧ step t = .next u ∧ Running u ∧ u.pc.toNat = s.pc.toNat + 2 ∧ u.sp = s.sp

/-- R66, R67. That the fetch after such a skip from the end of memory faults (the last clause) is the spec's own D12 (log 19). -/
def Obligations.SkipsOnAnImmediate : Prop :=
  ∀ (x : Reg) (kk : Byte) (s : State),
    decodeWord (0x3#4 ++ x ++ kk) = some (.seImm x kk) ∧ decodeWord (0x4#4 ++ x ++ kk) = some (.sneImm x kk) ∧
    (∃ t, exec (.seImm x kk) s = .next t ∧ t.pc = (if (readV s x).toNat = kk.toNat then s.pc + 4 else s.pc + 2) ∧
      KeepsAllBut [.pc] s t) ∧
    (∃ t, exec (.sneImm x kk) s = .next t ∧ t.pc = (if (readV s x).toNat = kk.toNat then s.pc + 2 else s.pc + 4) ∧
      KeepsAllBut [.pc] s t) ∧
    (0xFFC ≤ s.pc.toNat → s.pc.toNat ≤ 0xFFE →
      (readV s x = kk → ∃ t, exec (.seImm x kk) s = .next t ∧ fetch t = .error (s.pc.toNat + 4)) ∧
      (readV s x ≠ kk → ∃ t, exec (.sneImm x kk) s = .next t ∧ fetch t = .error (s.pc.toNat + 4)))

/-- R68, R69. That the words with another low nibble are invalid is the spec's own D2 (log 22). -/
def Obligations.SkipsOnRegisters : Prop :=
  ∀ (x y : Reg) (s : State),
    decodeWord (0x5#4 ++ x ++ y ++ 0x0#4) = some (.seReg x y) ∧
    decodeWord (0x9#4 ++ x ++ y ++ 0x0#4) = some (.sneReg x y) ∧
    (∀ n : Nibble, n ≠ 0 → decodeWord (0x5#4 ++ x ++ y ++ n) = none ∧ decodeWord (0x9#4 ++ x ++ y ++ n) = none) ∧
    (∃ t, exec (.seReg x y) s = .next t ∧ KeepsAllBut [.pc] s t ∧
      t.pc = (if x = y ∨ (readV s x).toNat = (readV s y).toNat then s.pc + 4 else s.pc + 2)) ∧
    (∃ t, exec (.sneReg x y) s = .next t ∧ KeepsAllBut [.pc] s t ∧
      t.pc = (if x = y ∨ (readV s x).toNat = (readV s y).toNat then s.pc + 2 else s.pc + 4))

/-- R90, R91. -/
def Obligations.SkipsOnKeys : Prop :=
  ∀ (x : Reg) (s : State),
    decodeWord (0xE#4 ++ x ++ 0x9E#8) = some (.skp x) ∧ decodeWord (0xE#4 ++ x ++ 0xA1#8) = some (.sknp x) ∧
    (∃ t, exec (.skp x) s = .next t ∧ KeepsAllBut [.pc] s t ∧
      t.pc = (if s.keys[(readV s x).toNat % 16]'(by omega) = true then s.pc + 4 else s.pc + 2)) ∧
    (∃ t, exec (.sknp x) s = .next t ∧ KeepsAllBut [.pc] s t ∧
      t.pc = (if s.keys[(readV s x).toNat % 16]'(by omega) = true then s.pc + 2 else s.pc + 4)) ∧
    (s.keys = noKeys → exec (.skp x) s = .next (advance s) ∧ exec (.sknp x) s = .next (setPc (s.pc + 4) s))

/-- R73, R74. -/
def Obligations.LoadAndAddImmediate : Prop :=
  ∀ (x : Reg) (kk : Byte) (s : State),
    decodeWord (0x6#4 ++ x ++ kk) = some (.ldImm x kk) ∧ decodeWord (0x7#4 ++ x ++ kk) = some (.addImm x kk) ∧
    (∃ t, exec (.ldImm x kk) s = .next t ∧ t.pc = s.pc + 2 ∧ KeepsAllBut [.V, .pc] s t ∧
      ∀ r, readV t r = if r = x then kk else readV s r) ∧
    (∃ t, exec (.addImm x kk) s = .next t ∧ t.pc = s.pc + 2 ∧ KeepsAllBut [.V, .pc] s t ∧
      ∀ r, (readV t r).toNat = if r = x then ((readV s x).toNat + kk.toNat) % 256 else (readV s r).toNat)

/-- R75–R78. -/
def Obligations.CopyAndLogic : Prop :=
  ∀ (x y : Reg) (s : State),
    decodeWord (0x8#4 ++ x ++ y ++ 0x0#4) = some (.ldReg x y) ∧ decodeWord (0x8#4 ++ x ++ y ++ 0x1#4) = some (.or x y) ∧
    decodeWord (0x8#4 ++ x ++ y ++ 0x2#4) = some (.and x y) ∧ decodeWord (0x8#4 ++ x ++ y ++ 0x3#4) = some (.xor x y) ∧
    (∃ t, exec (.ldReg x y) s = .next t ∧ t.pc = s.pc + 2 ∧ KeepsAllBut [.V, .pc] s t ∧
      ∀ r, readV t r = if r = x then readV s y else readV s r) ∧
    (∃ t, exec (.or x y) s = .next t ∧ t.pc = s.pc + 2 ∧ KeepsAllBut [.V, .pc] s t ∧
      (∀ r, r ≠ x → readV t r = readV s r) ∧
      ∀ b, (readV t x).getLsbD b = ((readV s x).getLsbD b || (readV s y).getLsbD b)) ∧
    (∃ t, exec (.and x y) s = .next t ∧ t.pc = s.pc + 2 ∧ KeepsAllBut [.V, .pc] s t ∧
      (∀ r, r ≠ x → readV t r = readV s r) ∧
      ∀ b, (readV t x).getLsbD b = ((readV s x).getLsbD b && (readV s y).getLsbD b)) ∧
    (∃ t, exec (.xor x y) s = .next t ∧ t.pc = s.pc + 2 ∧ KeepsAllBut [.V, .pc] s t ∧
      (∀ r, r ≠ x → readV t r = readV s r) ∧
      ∀ b, (readV t x).getLsbD b = ((readV s x).getLsbD b ^^ (readV s y).getLsbD b))

/-- R79 in the source's words ("an add whose mathematical sum exceeds 255"); with x = F the spec's own D8 (log 15). -/
def Obligations.AddSetsTheCarry : Prop :=
  ∀ (x y : Reg) (s : State), ∃ t, exec (.addReg x y) s = .next t ∧ t.pc = s.pc + 2 ∧ KeepsAllBut [.V, .pc] s t ∧
    ∀ r, (readV t r).toNat =
      if r = flagReg then (if (readV s x).toNat + (readV s y).toNat > 255 then 1 else 0)
      else if r = x then ((readV s x).toNat + (readV s y).toNat) % 256
      else (readV s r).toNat

/-- R80, R81 (C2); the difference is stated over the integers. With x = F the spec's own D8 (log 15). -/
def Obligations.SubtractsSetNoBorrow : Prop :=
  ∀ (x y : Reg) (s : State),
    (∃ t, exec (.sub x y) s = .next t ∧ t.pc = s.pc + 2 ∧ KeepsAllBut [.V, .pc] s t ∧
      ∀ r, ((readV t r).toNat : Int) =
        if r = flagReg then (if (readV s y).toNat < (readV s x).toNat then 1 else 0)
        else if r = x then ((readV s x).toNat - (readV s y).toNat : Int) % 256
        else (readV s r).toNat) ∧
    (∃ t, exec (.subn x y) s = .next t ∧ t.pc = s.pc + 2 ∧ KeepsAllBut [.V, .pc] s t ∧
      ∀ r, ((readV t r).toNat : Int) =
        if r = flagReg then (if (readV s x).toNat < (readV s y).toNat then 1 else 0)
        else if r = x then ((readV s y).toNat - (readV s x).toNat : Int) % 256
        else (readV s r).toNat)

/-- R82, R83 for both parameter values (the spec's own D7, D8, log 12, log 15). -/
def Obligations.ShiftsMoveOneBitIntoVf : Prop :=
  ∀ (x y : Reg) (s : State) (v : Nat),
    (s.params.shiftSource = .vx → v = (readV s x).toNat) → (s.params.shiftSource = .vy → v = (readV s y).toNat) →
    (∃ t, exec (.shr x y) s = .next t ∧ t.pc = s.pc + 2 ∧ KeepsAllBut [.V, .pc] s t ∧
      ∀ r, (readV t r).toNat = if r = flagReg then v % 2 else if r = x then v / 2 else (readV s r).toNat) ∧
    (∃ t, exec (.shl x y) s = .next t ∧ t.pc = s.pc + 2 ∧ KeepsAllBut [.V, .pc] s t ∧
      ∀ r, (readV t r).toNat = if r = flagReg then v / 128 else if r = x then 2 * v % 256 else (readV s r).toNat)

/-- R55, R82, R83: with `y = x` the result is the same under both values of `SHIFT_SOURCE`. -/
def Obligations.PseudoShiftsNeedNoParameter : Prop :=
  ∀ (x : Reg) (s : State) (p : Config.Params),
    exec (.shrOne x) { s with params := p } = mapNext (fun t => { t with params := p }) (exec (.shrOne x) s) ∧
    exec (.shlOne x) { s with params := p } = mapNext (fun t => { t with params := p }) (exec (.shlOne x) s)

/-- R84, R86. -/
def Obligations.IndexLoads : Prop :=
  ∀ (nnn : Addr12) (x : Reg) (s : State),
    decodeWord (0xA#4 ++ nnn) = some (.ldI nnn) ∧ decodeWord (0xF#4 ++ x ++ 0x29#8) = some (.ldF x) ∧
    (∃ t, exec (.ldI nnn) s = .next t ∧ t.pc = s.pc + 2 ∧ KeepsAllBut [.I, .pc] s t ∧ t.I.toNat = nnn.toNat) ∧
    (∃ t, exec (.ldF x) s = .next t ∧ t.pc = s.pc + 2 ∧ KeepsAllBut [.I, .pc] s t ∧
      t.I.toNat = 0x050 + 5 * (readV s x).toNat ∧ t.I.toNat ≤ 0x54B)

/-- R85 (the spec's own D13, log 20). -/
def Obligations.AddToIndexWraps : Prop :=
  ∀ (x : Reg) (s : State), ∃ t, exec (.addI x) s = .next t ∧ t.pc = s.pc + 2 ∧ KeepsAllBut [.I, .pc] s t ∧
    t.I.toNat = (s.I.toNat + (readV s x).toNat) % 65536

/-- R87 (the spec's own D10, log 17). -/
def Obligations.BcdStoresThreeDigits : Prop :=
  ∀ (x : Reg) (s : State), s.I.toNat + 2 ≤ 0xFFF →
    ∃ t, exec (.ldB x) s = .next t ∧ t.pc = s.pc + 2 ∧ KeepsAllBut [.mem, .pc] s t ∧
      (memRead t s.I.toNat).toNat = (readV s x).toNat / 100 ∧
      (memRead t (s.I.toNat + 1)).toNat = (readV s x).toNat / 10 % 10 ∧
      (memRead t (s.I.toNat + 2)).toNat = (readV s x).toNat % 10 ∧
      ∀ a, (a < s.I.toNat ∨ s.I.toNat + 2 < a) → memRead t a = memRead s a

/-- R88 (`I` unchanged: the spec's own D9, log 16). -/
def Obligations.RegisterRangeIsStored : Prop :=
  ∀ (x : Reg) (s : State), s.I.toNat + x.toNat ≤ 0xFFF →
    ∃ t, exec (.stRange x) s = .next t ∧ t.pc = s.pc + 2 ∧ KeepsAllBut [.mem, .pc] s t ∧
      (∀ k : Reg, k.toNat ≤ x.toNat → memRead t (s.I.toNat + k.toNat) = readV s k) ∧
      ∀ a, (a < s.I.toNat ∨ s.I.toNat + x.toNat < a) → memRead t a = memRead s a

/-- R89 (`I` unchanged: the spec's own D9, log 16). -/
def Obligations.RegisterRangeIsLoaded : Prop :=
  ∀ (x : Reg) (s : State), s.I.toNat + x.toNat ≤ 0xFFF →
    ∃ t, exec (.ldRange x) s = .next t ∧ t.pc = s.pc + 2 ∧ KeepsAllBut [.V, .pc] s t ∧
      ∀ k : Reg, readV t k = if k.toNat ≤ x.toNat then memRead s (s.I.toNat + k.toNat) else readV s k

/-- R43, R122: stores are seen by every later fetch (the rules are the spec's own derivations). -/
def Obligations.StoredBytesAreFetched : Prop :=
  ∀ (x k : Reg) (s t : State), s.I.toNat + x.toNat ≤ 0xFFF → k.toNat < x.toNat → exec (.stRange x) s = .next t →
    ∃ w, fetch (setPc (BitVec.ofNat 16 (s.I.toNat + k.toNat)) t) = .ok w ∧
      w.toNat = 256 * (readV s k).toNat + (readV s (k + 1)).toNat

/-- R92, R93; the two clauses about a cycle are their corner cases (the first, the spec's own derivation from R56 and R107). -/
def Obligations.DelayTimerTransfers : Prop :=
  ∀ (x : Reg) (s : State),
    decodeWord (0xF#4 ++ x ++ 0x07#8) = some (.ldVDt x) ∧ decodeWord (0xF#4 ++ x ++ 0x15#8) = some (.ldDtV x) ∧
    (∃ t, exec (.ldVDt x) s = .next t ∧ t.pc = s.pc + 2 ∧ KeepsAllBut [.V, .pc] s t ∧
      ∀ r, readV t r = if r = x then s.dt else readV s r) ∧
    (∃ t, exec (.ldDtV x) s = .next t ∧ t.pc = s.pc + 2 ∧ KeepsAllBut [.dt, .pc] s t ∧ t.dt = readV s x) ∧
    (Running s → nextInstr s = some (.ldVDt x) →
      ∃ t, step s = .next t ∧ (readV t x).toNat = s.dt.toNat - 1) ∧
    (Running s → nextInstr s = some (.ldDtV x) → ∃ t, step s = .next t ∧ t.dt = readV s x)

/-- R123 (i) (the spec's own derivation). -/
def Obligations.DelayWrittenThenReadIsOneLess : Prop :=
  ∀ (s t : State) (x y : Reg), Running s → nextInstr s = some (.ldDtV x) → step s = .next t →
    nextInstr t = some (.ldVDt y) → ∃ u, step t = .next u ∧ (readV u y).toNat = (readV s x).toNat - 1

/-- R59 in closed form (`Covers` of Safety.lean): the loop against its result. Clipping is the spec's own D5 (log 14), n = 0 its D14 (log 20). -/
def Obligations.DrawTogglesTheSprite : Prop :=
  ∀ (x y : Reg) (n : Nibble) (s : State), (n = 0 ∨ s.I.toNat + n.toNat - 1 ≤ 0xFFF) →
    ∃ t, exec (.drw x y n) s = .next t ∧ t.pc = s.pc + 2 ∧ KeepsAllBut [.fb, .V, .pc] s t ∧
      (∀ r, r ≠ flagReg → readV t r = readV s r) ∧
      (∀ px py, Covers s x y n px py → pixel t px py = !pixel s px py) ∧
      (∀ px py, ¬ Covers s x y n px py → pixel t px py = pixel s px py)

/-- R59, R60 (C3; the spec's own D6, log 13). That clipped bits write no flag is its D5 (log 14), that n = 0 never faults its D14 (log 20). -/
def Obligations.DrawFlagIsTheLastToggledPixel : Prop :=
  ∀ (x y : Reg) (n : Nibble) (s : State), (n = 0 ∨ s.I.toNat + n.toNat - 1 ≤ 0xFFF) →
    ∃ t, exec (.drw x y n) s = .next t ∧
      ((∀ px py, ¬ Covers s x y n px py) → readV t flagReg = readV s flagReg) ∧
      ∀ px py, Covers s x y n px py → (∀ qx qy, Covers s x y n qx qy → DrawnNoLaterThan qx qy px py) →
        readV t flagReg = match s.params.drawVfMode with
          | .literal => 1
          | .newPixel => if pixel s px py then 0 else 1

/-- R59, "idempotent double-draw", whatever the parameter. That n = 0 completes wherever `I` points is the spec's own
D14 (log 20). (R59's remark on VF after the second draw is not claimed: log 28.) -/
def Obligations.DrawingTwiceRestoresTheScreen : Prop :=
  ∀ (x y x2 y2 : Reg) (n : Nibble) (s t : State), (n = 0 ∨ s.I.toNat + n.toNat - 1 ≤ 0xFFF) →
    exec (.drw x y n) s = .next t →
    (readV t x2).toNat % 64 = (readV s x).toNat % 64 → (readV t y2).toNat % 32 = (readV s y).toNat % 32 →
    ∃ u, exec (.drw x2 y2 n) t = .next u ∧ ∀ px py, pixel u px py = pixel s px py

/-- R117, R118, R35 and 10_state.md section 10. The values D16–D19, D21 are the spec's own decisions (log 7–11). That reset holds R9's default
parameters is the model's choice (log 5). -/
def Obligations.ResetIsTheConstructedState : Prop :=
  (∀ r, readV .reset r = 0) ∧ State.reset.I = 0 ∧ State.reset.pc = 0x200 ∧ State.reset.sp = 0 ∧
    (∀ j : Fin 16, State.reset.stack[j.val] = 0) ∧ (∀ px py, pixel .reset px py = false) ∧
    State.reset.dt = 0 ∧ State.reset.st = 0 ∧ (∀ k, keyPressed .reset k = false) ∧ State.reset.halt = none ∧
    State.reset.params = { shiftSource := .vx, drawVfMode := .literal } ∧
    (List.range 80).map (fun k => memRead .reset (0x050 + k)) =
      [0xF0, 0x90, 0x90, 0x90, 0xF0, 0x20, 0x60, 0x20, 0x20, 0x70, 0xF0, 0x10, 0xF0, 0x80, 0xF0, 0xF0, 0x10, 0xF0, 0x10, 0xF0] ++
      [0x90, 0x90, 0xF0, 0x10, 0x10, 0xF0, 0x80, 0xF0, 0x10, 0xF0, 0xF0, 0x80, 0xF0, 0x90, 0xF0, 0xF0, 0x10, 0x20, 0x40, 0x40] ++
      [0xF0, 0x90, 0xF0, 0x90, 0xF0, 0xF0, 0x90, 0xF0, 0x10, 0xF0, 0xF0, 0x90, 0xF0, 0x90, 0x90, 0xE0, 0x90, 0xE0, 0x90, 0xE0] ++
      [0xF0, 0x80, 0x80, 0x80, 0xF0, 0xE0, 0x90, 0x90, 0x90, 0xE0, 0xF0, 0x80, 0xF0, 0x80, 0xF0, 0xF0, 0x80, 0xF0, 0x80, 0x80] ∧
    (∀ a, (a < 0x050 ∨ 0x09F < a) → memRead .reset a = 0)

/-- R117, R109 (the spec's own D15, log 21). That the given parameters (R9) stand in `params`, the model's own field, is the model's choice
(log 5, DESIGN CHOICE). -/
def Obligations.ConstructionLoadsTheImage : Prop :=
  ∀ (p : Config.Params) (image : List Byte),
    (image.length ≤ 3584 → ∃ s, construct p image = some s ∧ s.params = p ∧
      KeepsAllBut [.mem, .params] .reset s ∧
      (∀ (k : Nat) (h : k < image.length), memRead s (0x200 + k) = image[k]) ∧
      ∀ a, (a < 0x200 ∨ 0x200 + image.length ≤ a) → memRead s a = memRead .reset a) ∧
    (3584 < image.length → construct p image = none)

/-- The base of the invariant `Inv` of Safety.lean. -/
def Obligations.ResetMeetsTheInvariant : Prop :=
  Inv State.reset

/-- R23 (a derivation of the spec's own), R27, R29, R31, R36, R101 together, over every instruction and fault. -/
def Obligations.StepKeepsTheInvariant : Prop :=
  ∀ s t : State, Inv s → step s = .next t → Inv t

/-- R120, R56: construct, then invoke cycles, supplying K before each. That the run goes on after a fault, through halted states, is the model's
choice (log 2, DESIGN CHOICE); R100 calls that machine halted. -/
def Obligations.EveryProgramRunsInsideTheInvariant : Prop :=
  ∀ (p : Config.Params) (image : List Byte) (Ks : List KeySet), image.length ≤ 3584 →
    ∃ s t, construct p image = some s ∧ cycles Ks s = .next t ∧ Inv t
end

