-- ==== Sys2Proof/Laws/Decode.lean ====
section
/-! SUPPORT. The decoder's fields over the encoder's words, and back: what each format's word holds (30_encoding.md R46, R49). -/

namespace Sys2Proof

@[simp] theorem fieldOp_N (a : Nibble) (b : Addr12) : fieldOp (a ++ b) = a := by
  apply BitVec.eq_of_getLsbD_eq; intro i hi
  simp only [fieldOp, BitVec.getLsbD_extractLsb', BitVec.getLsbD_append, hi]
  simp [show ¬ (12 + i < 12) by omega, show 12 + i - 12 = i by omega, hi]
@[simp] theorem fieldNnn_N (a : Nibble) (b : Addr12) : fieldNnn (a ++ b) = b := by
  apply BitVec.eq_of_getLsbD_eq; intro i hi
  simp only [fieldNnn, BitVec.getLsbD_extractLsb', BitVec.getLsbD_append, hi]
  simp [hi]
@[simp] theorem fieldOp_XK (a : Nibble) (x : Reg) (k : Byte) : fieldOp (a ++ x ++ k) = a := by
  apply BitVec.eq_of_getLsbD_eq; intro i hi
  simp only [fieldOp, BitVec.getLsbD_extractLsb', BitVec.getLsbD_append, hi]
  simp [show ¬ (12 + i < 8) by omega, show ¬ (12 + i - 8 < 4) by omega, show 12 + i - 8 - 4 = i by omega, hi]
@[simp] theorem fieldX_XK (a : Nibble) (x : Reg) (k : Byte) : fieldX (a ++ x ++ k) = x := by
  apply BitVec.eq_of_getLsbD_eq; intro i hi
  simp only [fieldX, BitVec.getLsbD_extractLsb', BitVec.getLsbD_append, hi]
  simp [show ¬ (8 + i < 8) by omega, show 8 + i - 8 = i by omega, hi]
@[simp] theorem fieldKk_XK (a : Nibble) (x : Reg) (k : Byte) : fieldKk (a ++ x ++ k) = k := by
  apply BitVec.eq_of_getLsbD_eq; intro i hi
  simp only [fieldKk, BitVec.getLsbD_extractLsb', BitVec.getLsbD_append, hi]
  simp [hi]
@[simp] theorem fieldOp_XYN (a : Nibble) (x y n : BitVec 4) : fieldOp (a ++ x ++ y ++ n) = a := by
  apply BitVec.eq_of_getLsbD_eq; intro i hi
  simp only [fieldOp, BitVec.getLsbD_extractLsb', BitVec.getLsbD_append, hi]
  simp [show ¬ (12 + i < 4) by omega, show ¬ (12 + i - 4 < 4) by omega, show ¬ (12 + i - 4 - 4 < 4) by omega, show 12 + i - 4 - 4 - 4 = i by omega, hi]
@[simp] theorem fieldX_XYN (a : Nibble) (x y n : BitVec 4) : fieldX (a ++ x ++ y ++ n) = x := by
  apply BitVec.eq_of_getLsbD_eq; intro i hi
  simp only [fieldX, BitVec.getLsbD_extractLsb', BitVec.getLsbD_append, hi]
  simp [show ¬ (8 + i < 4) by omega, show ¬ (8 + i - 4 < 4) by omega, show 8 + i - 4 - 4 = i by omega, hi]
@[simp] theorem fieldY_XYN (a : Nibble) (x y n : BitVec 4) : fieldY (a ++ x ++ y ++ n) = y := by
  apply BitVec.eq_of_getLsbD_eq; intro i hi
  simp only [fieldY, BitVec.getLsbD_extractLsb', BitVec.getLsbD_append, hi]
  simp [show ¬ (4 + i < 4) by omega, show 4 + i - 4 = i by omega, hi]
@[simp] theorem fieldN_XYN (a : Nibble) (x y n : BitVec 4) : fieldN (a ++ x ++ y ++ n) = n := by
  apply BitVec.eq_of_getLsbD_eq; intro i hi
  simp only [fieldN, BitVec.getLsbD_extractLsb', BitVec.getLsbD_append, hi]
  simp [hi]

/-- A word is its leading nibble and its address field. -/
theorem word_eq_op_nnn (w : Word) : fieldOp w ++ fieldNnn w = w := by
  apply BitVec.eq_of_getLsbD_eq; intro i hi
  simp only [fieldOp, fieldNnn, BitVec.getLsbD_extractLsb', BitVec.getLsbD_append]
  by_cases h : i < 12
  · simp [h]
  · simp [h, show i - 12 < 4 by omega, show 12 + (i - 12) = i by omega]

/-- A word is its leading nibble, its first register field and its low byte. -/
theorem word_eq_op_x_kk (w : Word) : fieldOp w ++ fieldX w ++ fieldKk w = w := by
  apply BitVec.eq_of_getLsbD_eq; intro i hi
  simp only [fieldOp, fieldX, fieldKk, BitVec.getLsbD_extractLsb', BitVec.getLsbD_append]
  by_cases h : i < 8
  · simp [h]
  · by_cases h2 : i < 12
    · simp [h, show i - 8 < 4 by omega, show 8 + (i - 8) = i by omega]
    · simp [h, show ¬ i - 8 < 4 by omega, show i - 8 - 4 < 4 by omega, show 12 + (i - 8 - 4) = i by omega]

/-- A word is its four nibbles. -/
theorem word_eq_op_x_y_n (w : Word) : fieldOp w ++ fieldX w ++ fieldY w ++ fieldN w = w := by
  apply BitVec.eq_of_getLsbD_eq; intro i hi
  simp only [fieldOp, fieldX, fieldY, fieldN, BitVec.getLsbD_extractLsb', BitVec.getLsbD_append]
  by_cases h : i < 4
  · simp [h]
  · by_cases h2 : i < 8
    · simp [h, show i - 4 < 4 by omega, show 4 + (i - 4) = i by omega]
    · by_cases h3 : i < 12
      · simp [h, show ¬ i - 4 < 4 by omega, show i - 4 - 4 < 4 by omega, show 8 + (i - 4 - 4) = i by omega]
      · simp [h, show ¬ i - 4 < 4 by omega, show ¬ i - 4 - 4 < 4 by omega, show i - 4 - 4 - 4 < 4 by omega,
          show 12 + (i - 4 - 4 - 4) = i by omega]

/-! ## A word under a mask, field by field -/

theorem extract_and (lo n : Nat) (w m : Word) :
    (w &&& m).extractLsb' lo n = w.extractLsb' lo n &&& m.extractLsb' lo n := by
  apply BitVec.eq_of_getLsbD_eq; intro i hi
  simp [hi]

theorem fieldOp_and (w m : Word) : fieldOp (w &&& m) = fieldOp w &&& fieldOp m := extract_and ..
theorem fieldX_and (w m : Word) : fieldX (w &&& m) = fieldX w &&& fieldX m := extract_and ..
theorem fieldY_and (w m : Word) : fieldY (w &&& m) = fieldY w &&& fieldY m := extract_and ..
theorem fieldN_and (w m : Word) : fieldN (w &&& m) = fieldN w &&& fieldN m := extract_and ..
theorem fieldKk_and (w m : Word) : fieldKk (w &&& m) = fieldKk w &&& fieldKk m := extract_and ..
theorem fieldNnn_and (w m : Word) : fieldNnn (w &&& m) = fieldNnn w &&& fieldNnn m := extract_and ..

theorem mask_iff_N (w m p : Word) :
    w &&& m = p ↔ fieldOp w &&& fieldOp m = fieldOp p ∧ fieldNnn w &&& fieldNnn m = fieldNnn p := by
  rw [← fieldOp_and, ← fieldNnn_and]
  constructor
  · rintro rfl; simp
  · rintro ⟨h1, h2⟩; rw [← word_eq_op_nnn (w &&& m), h1, h2, word_eq_op_nnn]

theorem mask_iff_XK (w m p : Word) :
    w &&& m = p ↔ fieldOp w &&& fieldOp m = fieldOp p ∧ fieldX w &&& fieldX m = fieldX p ∧
      fieldKk w &&& fieldKk m = fieldKk p := by
  rw [← fieldOp_and, ← fieldX_and, ← fieldKk_and]
  constructor
  · rintro rfl; simp
  · rintro ⟨h1, h2, h3⟩; rw [← word_eq_op_x_kk (w &&& m), h1, h2, h3, word_eq_op_x_kk]

theorem mask_iff_XYN (w m p : Word) :
    w &&& m = p ↔ fieldOp w &&& fieldOp m = fieldOp p ∧ fieldX w &&& fieldX m = fieldX p ∧
      fieldY w &&& fieldY m = fieldY p ∧ fieldN w &&& fieldN m = fieldN p := by
  rw [← fieldOp_and, ← fieldX_and, ← fieldY_and, ← fieldN_and]
  constructor
  · rintro rfl; simp
  · rintro ⟨h1, h2, h3, h4⟩; rw [← word_eq_op_x_y_n (w &&& m), h1, h2, h3, h4, word_eq_op_x_y_n]

/-! ## Bytes -/

@[simp] theorem highByte_joinBytes (hi lo : Byte) : highByte (joinBytes hi lo) = hi := by
  apply BitVec.eq_of_getLsbD_eq; intro i h
  simp only [highByte, joinBytes, BitVec.getLsbD_extractLsb', BitVec.getLsbD_append, h]
  simp

@[simp] theorem lowByte_joinBytes (hi lo : Byte) : lowByte (joinBytes hi lo) = lo := by
  apply BitVec.eq_of_getLsbD_eq; intro i h
  simp only [lowByte, joinBytes, BitVec.getLsbD_extractLsb', BitVec.getLsbD_append, h]
  simp [h]

@[simp] theorem joinBytes_bytes (w : Word) : joinBytes (highByte w) (lowByte w) = w := by
  apply BitVec.eq_of_getLsbD_eq; intro i hi
  simp only [highByte, lowByte, joinBytes, BitVec.getLsbD_extractLsb', BitVec.getLsbD_append]
  by_cases h : i < 8
  · simp [h]
  · simp [h, show i - 8 < 8 by omega, show 8 + (i - 8) = i by omega]

/-- A word's number is 256 times its high byte and its low byte (R38). -/
theorem joinBytes_toNat (hi lo : Byte) : (joinBytes hi lo).toNat = 256 * hi.toNat + lo.toNat := by
  rw [joinBytes, BitVec.toNat_append, Nat.shiftLeft_eq, Nat.mul_comm, ← Nat.two_pow_add_eq_or_of_lt lo.isLt]

/-- Every operand is in its field's range, so every instruction is well-formed (R17). -/
theorem Instr.wf_always (i : Instr) : i.WellFormed := by
  cases i <;> simp [Instr.WellFormed, Instr.wf] <;> omega

end Sys2Proof
end

