-- ==== Sys2Proof/Laws/State.lean ====
section
/-! SUPPORT. One lemma per field per update, so that no proof unfolds a record update. -/

namespace Sys2Proof.Machine

@[simp] theorem writeV_mem (r : Reg) (v : Byte) (s : State) : (writeV r v s).mem = s.mem := rfl
@[simp] theorem writeV_V (r : Reg) (v : Byte) (s : State) : (writeV r v s).V = s.V.set r.toNat v (Reg.toNat_lt r) := rfl
@[simp] theorem writeV_I (r : Reg) (v : Byte) (s : State) : (writeV r v s).I = s.I := rfl
@[simp] theorem writeV_pc (r : Reg) (v : Byte) (s : State) : (writeV r v s).pc = s.pc := rfl
@[simp] theorem writeV_stack (r : Reg) (v : Byte) (s : State) : (writeV r v s).stack = s.stack := rfl
@[simp] theorem writeV_sp (r : Reg) (v : Byte) (s : State) : (writeV r v s).sp = s.sp := rfl
@[simp] theorem writeV_fb (r : Reg) (v : Byte) (s : State) : (writeV r v s).fb = s.fb := rfl
@[simp] theorem writeV_dt (r : Reg) (v : Byte) (s : State) : (writeV r v s).dt = s.dt := rfl
@[simp] theorem writeV_st (r : Reg) (v : Byte) (s : State) : (writeV r v s).st = s.st := rfl
@[simp] theorem writeV_keys (r : Reg) (v : Byte) (s : State) : (writeV r v s).keys = s.keys := rfl
@[simp] theorem writeV_halt (r : Reg) (v : Byte) (s : State) : (writeV r v s).halt = s.halt := rfl
@[simp] theorem writeV_params (r : Reg) (v : Byte) (s : State) : (writeV r v s).params = s.params := rfl

@[simp] theorem setPc_mem (a : Word) (s : State) : (setPc a s).mem = s.mem := rfl
@[simp] theorem setPc_V (a : Word) (s : State) : (setPc a s).V = s.V := rfl
@[simp] theorem setPc_I (a : Word) (s : State) : (setPc a s).I = s.I := rfl
@[simp] theorem setPc_pc (a : Word) (s : State) : (setPc a s).pc = a := rfl
@[simp] theorem setPc_stack (a : Word) (s : State) : (setPc a s).stack = s.stack := rfl
@[simp] theorem setPc_sp (a : Word) (s : State) : (setPc a s).sp = s.sp := rfl
@[simp] theorem setPc_fb (a : Word) (s : State) : (setPc a s).fb = s.fb := rfl
@[simp] theorem setPc_dt (a : Word) (s : State) : (setPc a s).dt = s.dt := rfl
@[simp] theorem setPc_st (a : Word) (s : State) : (setPc a s).st = s.st := rfl
@[simp] theorem setPc_keys (a : Word) (s : State) : (setPc a s).keys = s.keys := rfl
@[simp] theorem setPc_halt (a : Word) (s : State) : (setPc a s).halt = s.halt := rfl
@[simp] theorem setPc_params (a : Word) (s : State) : (setPc a s).params = s.params := rfl

@[simp] theorem advance_mem (s : State) : (advance s).mem = s.mem := rfl
@[simp] theorem advance_V (s : State) : (advance s).V = s.V := rfl
@[simp] theorem advance_I (s : State) : (advance s).I = s.I := rfl
@[simp] theorem advance_pc (s : State) : (advance s).pc = s.pc + 2 := rfl
@[simp] theorem advance_stack (s : State) : (advance s).stack = s.stack := rfl
@[simp] theorem advance_sp (s : State) : (advance s).sp = s.sp := rfl
@[simp] theorem advance_fb (s : State) : (advance s).fb = s.fb := rfl
@[simp] theorem advance_dt (s : State) : (advance s).dt = s.dt := rfl
@[simp] theorem advance_st (s : State) : (advance s).st = s.st := rfl
@[simp] theorem advance_keys (s : State) : (advance s).keys = s.keys := rfl
@[simp] theorem advance_halt (s : State) : (advance s).halt = s.halt := rfl
@[simp] theorem advance_params (s : State) : (advance s).params = s.params := rfl

@[simp] theorem setI_mem (a : Word) (s : State) : (setI a s).mem = s.mem := rfl
@[simp] theorem setI_V (a : Word) (s : State) : (setI a s).V = s.V := rfl
@[simp] theorem setI_I (a : Word) (s : State) : (setI a s).I = a := rfl
@[simp] theorem setI_pc (a : Word) (s : State) : (setI a s).pc = s.pc := rfl
@[simp] theorem setI_stack (a : Word) (s : State) : (setI a s).stack = s.stack := rfl
@[simp] theorem setI_sp (a : Word) (s : State) : (setI a s).sp = s.sp := rfl
@[simp] theorem setI_fb (a : Word) (s : State) : (setI a s).fb = s.fb := rfl
@[simp] theorem setI_dt (a : Word) (s : State) : (setI a s).dt = s.dt := rfl
@[simp] theorem setI_st (a : Word) (s : State) : (setI a s).st = s.st := rfl
@[simp] theorem setI_keys (a : Word) (s : State) : (setI a s).keys = s.keys := rfl
@[simp] theorem setI_halt (a : Word) (s : State) : (setI a s).halt = s.halt := rfl
@[simp] theorem setI_params (a : Word) (s : State) : (setI a s).params = s.params := rfl

@[simp] theorem setPixel_mem (px : Fin 64) (py : Fin 32) (b : Bool) (s : State) : (setPixel px py b s).mem = s.mem := rfl
@[simp] theorem setPixel_V (px : Fin 64) (py : Fin 32) (b : Bool) (s : State) : (setPixel px py b s).V = s.V := rfl
@[simp] theorem setPixel_I (px : Fin 64) (py : Fin 32) (b : Bool) (s : State) : (setPixel px py b s).I = s.I := rfl
@[simp] theorem setPixel_pc (px : Fin 64) (py : Fin 32) (b : Bool) (s : State) : (setPixel px py b s).pc = s.pc := rfl
@[simp] theorem setPixel_stack (px : Fin 64) (py : Fin 32) (b : Bool) (s : State) : (setPixel px py b s).stack = s.stack := rfl
@[simp] theorem setPixel_sp (px : Fin 64) (py : Fin 32) (b : Bool) (s : State) : (setPixel px py b s).sp = s.sp := rfl
@[simp] theorem setPixel_dt (px : Fin 64) (py : Fin 32) (b : Bool) (s : State) : (setPixel px py b s).dt = s.dt := rfl
@[simp] theorem setPixel_st (px : Fin 64) (py : Fin 32) (b : Bool) (s : State) : (setPixel px py b s).st = s.st := rfl
@[simp] theorem setPixel_keys (px : Fin 64) (py : Fin 32) (b : Bool) (s : State) : (setPixel px py b s).keys = s.keys := rfl
@[simp] theorem setPixel_halt (px : Fin 64) (py : Fin 32) (b : Bool) (s : State) : (setPixel px py b s).halt = s.halt := rfl
@[simp] theorem setPixel_params (px : Fin 64) (py : Fin 32) (b : Bool) (s : State) : (setPixel px py b s).params = s.params := rfl

@[simp] theorem clearScreen_mem (s : State) : (clearScreen s).mem = s.mem := rfl
@[simp] theorem clearScreen_V (s : State) : (clearScreen s).V = s.V := rfl
@[simp] theorem clearScreen_I (s : State) : (clearScreen s).I = s.I := rfl
@[simp] theorem clearScreen_pc (s : State) : (clearScreen s).pc = s.pc := rfl
@[simp] theorem clearScreen_stack (s : State) : (clearScreen s).stack = s.stack := rfl
@[simp] theorem clearScreen_sp (s : State) : (clearScreen s).sp = s.sp := rfl
@[simp] theorem clearScreen_fb (s : State) : (clearScreen s).fb = blankScreen := rfl
@[simp] theorem clearScreen_dt (s : State) : (clearScreen s).dt = s.dt := rfl
@[simp] theorem clearScreen_st (s : State) : (clearScreen s).st = s.st := rfl
@[simp] theorem clearScreen_keys (s : State) : (clearScreen s).keys = s.keys := rfl
@[simp] theorem clearScreen_halt (s : State) : (clearScreen s).halt = s.halt := rfl
@[simp] theorem clearScreen_params (s : State) : (clearScreen s).params = s.params := rfl

@[simp] theorem timerTick_mem (s : State) : (timerTick s).mem = s.mem := rfl
@[simp] theorem timerTick_V (s : State) : (timerTick s).V = s.V := rfl
@[simp] theorem timerTick_I (s : State) : (timerTick s).I = s.I := rfl
@[simp] theorem timerTick_pc (s : State) : (timerTick s).pc = s.pc := rfl
@[simp] theorem timerTick_stack (s : State) : (timerTick s).stack = s.stack := rfl
@[simp] theorem timerTick_sp (s : State) : (timerTick s).sp = s.sp := rfl
@[simp] theorem timerTick_fb (s : State) : (timerTick s).fb = s.fb := rfl
@[simp] theorem timerTick_dt (s : State) : (timerTick s).dt = decTimer s.dt := rfl
@[simp] theorem timerTick_st (s : State) : (timerTick s).st = decTimer s.st := rfl
@[simp] theorem timerTick_keys (s : State) : (timerTick s).keys = s.keys := rfl
@[simp] theorem timerTick_halt (s : State) : (timerTick s).halt = s.halt := rfl
@[simp] theorem timerTick_params (s : State) : (timerTick s).params = s.params := rfl

@[simp] theorem setDt_mem (v : Byte) (s : State) : (setDt v s).mem = s.mem := rfl
@[simp] theorem setDt_V (v : Byte) (s : State) : (setDt v s).V = s.V := rfl
@[simp] theorem setDt_I (v : Byte) (s : State) : (setDt v s).I = s.I := rfl
@[simp] theorem setDt_pc (v : Byte) (s : State) : (setDt v s).pc = s.pc := rfl
@[simp] theorem setDt_stack (v : Byte) (s : State) : (setDt v s).stack = s.stack := rfl
@[simp] theorem setDt_sp (v : Byte) (s : State) : (setDt v s).sp = s.sp := rfl
@[simp] theorem setDt_fb (v : Byte) (s : State) : (setDt v s).fb = s.fb := rfl
@[simp] theorem setDt_dt (v : Byte) (s : State) : (setDt v s).dt = v := rfl
@[simp] theorem setDt_st (v : Byte) (s : State) : (setDt v s).st = s.st := rfl
@[simp] theorem setDt_keys (v : Byte) (s : State) : (setDt v s).keys = s.keys := rfl
@[simp] theorem setDt_halt (v : Byte) (s : State) : (setDt v s).halt = s.halt := rfl
@[simp] theorem setDt_params (v : Byte) (s : State) : (setDt v s).params = s.params := rfl

@[simp] theorem supplyKeys_mem (K : KeySet) (s : State) : (supplyKeys K s).mem = s.mem := rfl
@[simp] theorem supplyKeys_V (K : KeySet) (s : State) : (supplyKeys K s).V = s.V := rfl
@[simp] theorem supplyKeys_I (K : KeySet) (s : State) : (supplyKeys K s).I = s.I := rfl
@[simp] theorem supplyKeys_pc (K : KeySet) (s : State) : (supplyKeys K s).pc = s.pc := rfl
@[simp] theorem supplyKeys_stack (K : KeySet) (s : State) : (supplyKeys K s).stack = s.stack := rfl
@[simp] theorem supplyKeys_sp (K : KeySet) (s : State) : (supplyKeys K s).sp = s.sp := rfl
@[simp] theorem supplyKeys_fb (K : KeySet) (s : State) : (supplyKeys K s).fb = s.fb := rfl
@[simp] theorem supplyKeys_dt (K : KeySet) (s : State) : (supplyKeys K s).dt = s.dt := rfl
@[simp] theorem supplyKeys_st (K : KeySet) (s : State) : (supplyKeys K s).st = s.st := rfl
@[simp] theorem supplyKeys_keys (K : KeySet) (s : State) : (supplyKeys K s).keys = K := rfl
@[simp] theorem supplyKeys_halt (K : KeySet) (s : State) : (supplyKeys K s).halt = s.halt := rfl
@[simp] theorem supplyKeys_params (K : KeySet) (s : State) : (supplyKeys K s).params = s.params := rfl

@[simp] theorem endCycle_mem (s : State) : (endCycle s).mem = s.mem := rfl
@[simp] theorem endCycle_V (s : State) : (endCycle s).V = s.V := rfl
@[simp] theorem endCycle_I (s : State) : (endCycle s).I = s.I := rfl
@[simp] theorem endCycle_pc (s : State) : (endCycle s).pc = s.pc := rfl
@[simp] theorem endCycle_stack (s : State) : (endCycle s).stack = s.stack := rfl
@[simp] theorem endCycle_sp (s : State) : (endCycle s).sp = s.sp := rfl
@[simp] theorem endCycle_fb (s : State) : (endCycle s).fb = s.fb := rfl
@[simp] theorem endCycle_dt (s : State) : (endCycle s).dt = s.dt := rfl
@[simp] theorem endCycle_st (s : State) : (endCycle s).st = s.st := rfl
@[simp] theorem endCycle_keys (s : State) : (endCycle s).keys = noKeys := rfl
@[simp] theorem endCycle_halt (s : State) : (endCycle s).halt = s.halt := rfl
@[simp] theorem endCycle_params (s : State) : (endCycle s).params = s.params := rfl

@[simp] theorem memWrite_mem (a : Nat) (v : Byte) (s : State) : (memWrite a v s).mem = Memory.write s.mem a v := rfl
@[simp] theorem memWrite_V (a : Nat) (v : Byte) (s : State) : (memWrite a v s).V = s.V := rfl
@[simp] theorem memWrite_I (a : Nat) (v : Byte) (s : State) : (memWrite a v s).I = s.I := rfl
@[simp] theorem memWrite_pc (a : Nat) (v : Byte) (s : State) : (memWrite a v s).pc = s.pc := rfl
@[simp] theorem memWrite_stack (a : Nat) (v : Byte) (s : State) : (memWrite a v s).stack = s.stack := rfl
@[simp] theorem memWrite_sp (a : Nat) (v : Byte) (s : State) : (memWrite a v s).sp = s.sp := rfl
@[simp] theorem memWrite_fb (a : Nat) (v : Byte) (s : State) : (memWrite a v s).fb = s.fb := rfl
@[simp] theorem memWrite_dt (a : Nat) (v : Byte) (s : State) : (memWrite a v s).dt = s.dt := rfl
@[simp] theorem memWrite_st (a : Nat) (v : Byte) (s : State) : (memWrite a v s).st = s.st := rfl
@[simp] theorem memWrite_keys (a : Nat) (v : Byte) (s : State) : (memWrite a v s).keys = s.keys := rfl
@[simp] theorem memWrite_halt (a : Nat) (v : Byte) (s : State) : (memWrite a v s).halt = s.halt := rfl
@[simp] theorem memWrite_params (a : Nat) (v : Byte) (s : State) : (memWrite a v s).params = s.params := rfl

@[simp] theorem raiseFault_mem (k : FaultKind) (w : Option Word) (a : Option Nat) (s : State) : (raiseFault k w a s).mem = s.mem := rfl
@[simp] theorem raiseFault_V (k : FaultKind) (w : Option Word) (a : Option Nat) (s : State) : (raiseFault k w a s).V = s.V := rfl
@[simp] theorem raiseFault_I (k : FaultKind) (w : Option Word) (a : Option Nat) (s : State) : (raiseFault k w a s).I = s.I := rfl
@[simp] theorem raiseFault_pc (k : FaultKind) (w : Option Word) (a : Option Nat) (s : State) : (raiseFault k w a s).pc = s.pc := rfl
@[simp] theorem raiseFault_stack (k : FaultKind) (w : Option Word) (a : Option Nat) (s : State) : (raiseFault k w a s).stack = s.stack := rfl
@[simp] theorem raiseFault_sp (k : FaultKind) (w : Option Word) (a : Option Nat) (s : State) : (raiseFault k w a s).sp = s.sp := rfl
@[simp] theorem raiseFault_fb (k : FaultKind) (w : Option Word) (a : Option Nat) (s : State) : (raiseFault k w a s).fb = s.fb := rfl
@[simp] theorem raiseFault_dt (k : FaultKind) (w : Option Word) (a : Option Nat) (s : State) : (raiseFault k w a s).dt = s.dt := rfl
@[simp] theorem raiseFault_st (k : FaultKind) (w : Option Word) (a : Option Nat) (s : State) : (raiseFault k w a s).st = s.st := rfl
@[simp] theorem raiseFault_keys (k : FaultKind) (w : Option Word) (a : Option Nat) (s : State) : (raiseFault k w a s).keys = s.keys := rfl
@[simp] theorem raiseFault_halt (k : FaultKind) (w : Option Word) (a : Option Nat) (s : State) : (raiseFault k w a s).halt = some ⟨k, s.pc, w, a⟩ := rfl
@[simp] theorem raiseFault_params (k : FaultKind) (w : Option Word) (a : Option Nat) (s : State) : (raiseFault k w a s).params = s.params := rfl

@[simp] theorem raiseIn_mem (i : Instr) (k : FaultKind) (a : Option Nat) (s : State) : (raiseIn i k a s).mem = s.mem := rfl
@[simp] theorem raiseIn_V (i : Instr) (k : FaultKind) (a : Option Nat) (s : State) : (raiseIn i k a s).V = s.V := rfl
@[simp] theorem raiseIn_I (i : Instr) (k : FaultKind) (a : Option Nat) (s : State) : (raiseIn i k a s).I = s.I := rfl
@[simp] theorem raiseIn_pc (i : Instr) (k : FaultKind) (a : Option Nat) (s : State) : (raiseIn i k a s).pc = s.pc := rfl
@[simp] theorem raiseIn_stack (i : Instr) (k : FaultKind) (a : Option Nat) (s : State) : (raiseIn i k a s).stack = s.stack := rfl
@[simp] theorem raiseIn_sp (i : Instr) (k : FaultKind) (a : Option Nat) (s : State) : (raiseIn i k a s).sp = s.sp := rfl
@[simp] theorem raiseIn_fb (i : Instr) (k : FaultKind) (a : Option Nat) (s : State) : (raiseIn i k a s).fb = s.fb := rfl
@[simp] theorem raiseIn_dt (i : Instr) (k : FaultKind) (a : Option Nat) (s : State) : (raiseIn i k a s).dt = s.dt := rfl
@[simp] theorem raiseIn_st (i : Instr) (k : FaultKind) (a : Option Nat) (s : State) : (raiseIn i k a s).st = s.st := rfl
@[simp] theorem raiseIn_keys (i : Instr) (k : FaultKind) (a : Option Nat) (s : State) : (raiseIn i k a s).keys = s.keys := rfl
@[simp] theorem raiseIn_halt (i : Instr) (k : FaultKind) (a : Option Nat) (s : State) : (raiseIn i k a s).halt = some ⟨k, s.pc, some (encodeWord i), a⟩ := rfl
@[simp] theorem raiseIn_params (i : Instr) (k : FaultKind) (a : Option Nat) (s : State) : (raiseIn i k a s).params = s.params := rfl

@[simp] theorem skipIf_mem (c : Bool) (s : State) : (skipIf c s).mem = s.mem := by cases c <;> rfl
@[simp] theorem skipIf_V (c : Bool) (s : State) : (skipIf c s).V = s.V := by cases c <;> rfl
@[simp] theorem skipIf_I (c : Bool) (s : State) : (skipIf c s).I = s.I := by cases c <;> rfl
@[simp] theorem skipIf_stack (c : Bool) (s : State) : (skipIf c s).stack = s.stack := by cases c <;> rfl
@[simp] theorem skipIf_sp (c : Bool) (s : State) : (skipIf c s).sp = s.sp := by cases c <;> rfl
@[simp] theorem skipIf_fb (c : Bool) (s : State) : (skipIf c s).fb = s.fb := by cases c <;> rfl
@[simp] theorem skipIf_dt (c : Bool) (s : State) : (skipIf c s).dt = s.dt := by cases c <;> rfl
@[simp] theorem skipIf_st (c : Bool) (s : State) : (skipIf c s).st = s.st := by cases c <;> rfl
@[simp] theorem skipIf_keys (c : Bool) (s : State) : (skipIf c s).keys = s.keys := by cases c <;> rfl
@[simp] theorem skipIf_halt (c : Bool) (s : State) : (skipIf c s).halt = s.halt := by cases c <;> rfl
@[simp] theorem skipIf_params (c : Bool) (s : State) : (skipIf c s).params = s.params := by cases c <;> rfl
@[simp] theorem skipIf_pc (c : Bool) (s : State) : (skipIf c s).pc = if c then s.pc + 4 else s.pc + 2 := by cases c <;> rfl

@[simp] theorem writeResultFlag_mem (x : Reg) (a b : Byte) (s : State) : (writeResultFlag x a b s).mem = s.mem := rfl
@[simp] theorem writeResultFlag_I (x : Reg) (a b : Byte) (s : State) : (writeResultFlag x a b s).I = s.I := rfl
@[simp] theorem writeResultFlag_pc (x : Reg) (a b : Byte) (s : State) : (writeResultFlag x a b s).pc = s.pc := rfl
@[simp] theorem writeResultFlag_stack (x : Reg) (a b : Byte) (s : State) : (writeResultFlag x a b s).stack = s.stack := rfl
@[simp] theorem writeResultFlag_sp (x : Reg) (a b : Byte) (s : State) : (writeResultFlag x a b s).sp = s.sp := rfl
@[simp] theorem writeResultFlag_fb (x : Reg) (a b : Byte) (s : State) : (writeResultFlag x a b s).fb = s.fb := rfl
@[simp] theorem writeResultFlag_dt (x : Reg) (a b : Byte) (s : State) : (writeResultFlag x a b s).dt = s.dt := rfl
@[simp] theorem writeResultFlag_st (x : Reg) (a b : Byte) (s : State) : (writeResultFlag x a b s).st = s.st := rfl
@[simp] theorem writeResultFlag_keys (x : Reg) (a b : Byte) (s : State) : (writeResultFlag x a b s).keys = s.keys := rfl
@[simp] theorem writeResultFlag_halt (x : Reg) (a b : Byte) (s : State) : (writeResultFlag x a b s).halt = s.halt := rfl
@[simp] theorem writeResultFlag_params (x : Reg) (a b : Byte) (s : State) : (writeResultFlag x a b s).params = s.params := rfl

/-! ## The readers over the updates that leave their field alone -/

@[simp] theorem memRead_writeV (r : Reg) (v : Byte) (s : State) (q : Nat) : memRead (writeV r v s) q = memRead s q := rfl
@[simp] theorem pixel_writeV (r : Reg) (v : Byte) (s : State) (qx : Fin 64) (qy : Fin 32) : pixel (writeV r v s) qx qy = pixel s qx qy := rfl
@[simp] theorem keyPressed_writeV (r : Reg) (v : Byte) (s : State) (q : Nibble) : keyPressed (writeV r v s) q = keyPressed s q := rfl
@[simp] theorem readV_setPc (a : Word) (s : State) (q : Reg) : readV (setPc a s) q = readV s q := rfl
@[simp] theorem memRead_setPc (a : Word) (s : State) (q : Nat) : memRead (setPc a s) q = memRead s q := rfl
@[simp] theorem pixel_setPc (a : Word) (s : State) (qx : Fin 64) (qy : Fin 32) : pixel (setPc a s) qx qy = pixel s qx qy := rfl
@[simp] theorem keyPressed_setPc (a : Word) (s : State) (q : Nibble) : keyPressed (setPc a s) q = keyPressed s q := rfl
@[simp] theorem readV_advance (s : State) (q : Reg) : readV (advance s) q = readV s q := rfl
@[simp] theorem memRead_advance (s : State) (q : Nat) : memRead (advance s) q = memRead s q := rfl
@[simp] theorem pixel_advance (s : State) (qx : Fin 64) (qy : Fin 32) : pixel (advance s) qx qy = pixel s qx qy := rfl
@[simp] theorem keyPressed_advance (s : State) (q : Nibble) : keyPressed (advance s) q = keyPressed s q := rfl
@[simp] theorem readV_setI (a : Word) (s : State) (q : Reg) : readV (setI a s) q = readV s q := rfl
@[simp] theorem memRead_setI (a : Word) (s : State) (q : Nat) : memRead (setI a s) q = memRead s q := rfl
@[simp] theorem pixel_setI (a : Word) (s : State) (qx : Fin 64) (qy : Fin 32) : pixel (setI a s) qx qy = pixel s qx qy := rfl
@[simp] theorem keyPressed_setI (a : Word) (s : State) (q : Nibble) : keyPressed (setI a s) q = keyPressed s q := rfl
@[simp] theorem readV_setPixel (px : Fin 64) (py : Fin 32) (b : Bool) (s : State) (q : Reg) : readV (setPixel px py b s) q = readV s q := rfl
@[simp] theorem memRead_setPixel (px : Fin 64) (py : Fin 32) (b : Bool) (s : State) (q : Nat) : memRead (setPixel px py b s) q = memRead s q := rfl
@[simp] theorem keyPressed_setPixel (px : Fin 64) (py : Fin 32) (b : Bool) (s : State) (q : Nibble) : keyPressed (setPixel px py b s) q = keyPressed s q := rfl
@[simp] theorem readV_clearScreen (s : State) (q : Reg) : readV (clearScreen s) q = readV s q := rfl
@[simp] theorem memRead_clearScreen (s : State) (q : Nat) : memRead (clearScreen s) q = memRead s q := rfl
@[simp] theorem keyPressed_clearScreen (s : State) (q : Nibble) : keyPressed (clearScreen s) q = keyPressed s q := rfl
@[simp] theorem readV_timerTick (s : State) (q : Reg) : readV (timerTick s) q = readV s q := rfl
@[simp] theorem memRead_timerTick (s : State) (q : Nat) : memRead (timerTick s) q = memRead s q := rfl
@[simp] theorem pixel_timerTick (s : State) (qx : Fin 64) (qy : Fin 32) : pixel (timerTick s) qx qy = pixel s qx qy := rfl
@[simp] theorem keyPressed_timerTick (s : State) (q : Nibble) : keyPressed (timerTick s) q = keyPressed s q := rfl
@[simp] theorem readV_setDt (v : Byte) (s : State) (q : Reg) : readV (setDt v s) q = readV s q := rfl
@[simp] theorem memRead_setDt (v : Byte) (s : State) (q : Nat) : memRead (setDt v s) q = memRead s q := rfl
@[simp] theorem pixel_setDt (v : Byte) (s : State) (qx : Fin 64) (qy : Fin 32) : pixel (setDt v s) qx qy = pixel s qx qy := rfl
@[simp] theorem keyPressed_setDt (v : Byte) (s : State) (q : Nibble) : keyPressed (setDt v s) q = keyPressed s q := rfl
@[simp] theorem readV_supplyKeys (K : KeySet) (s : State) (q : Reg) : readV (supplyKeys K s) q = readV s q := rfl
@[simp] theorem memRead_supplyKeys (K : KeySet) (s : State) (q : Nat) : memRead (supplyKeys K s) q = memRead s q := rfl
@[simp] theorem pixel_supplyKeys (K : KeySet) (s : State) (qx : Fin 64) (qy : Fin 32) : pixel (supplyKeys K s) qx qy = pixel s qx qy := rfl
@[simp] theorem readV_endCycle (s : State) (q : Reg) : readV (endCycle s) q = readV s q := rfl
@[simp] theorem memRead_endCycle (s : State) (q : Nat) : memRead (endCycle s) q = memRead s q := rfl
@[simp] theorem pixel_endCycle (s : State) (qx : Fin 64) (qy : Fin 32) : pixel (endCycle s) qx qy = pixel s qx qy := rfl
@[simp] theorem readV_memWrite (a : Nat) (v : Byte) (s : State) (q : Reg) : readV (memWrite a v s) q = readV s q := rfl
@[simp] theorem pixel_memWrite (a : Nat) (v : Byte) (s : State) (qx : Fin 64) (qy : Fin 32) : pixel (memWrite a v s) qx qy = pixel s qx qy := rfl
@[simp] theorem keyPressed_memWrite (a : Nat) (v : Byte) (s : State) (q : Nibble) : keyPressed (memWrite a v s) q = keyPressed s q := rfl
@[simp] theorem readV_raiseFault (k : FaultKind) (w : Option Word) (a : Option Nat) (s : State) (q : Reg) : readV (raiseFault k w a s) q = readV s q := rfl
@[simp] theorem memRead_raiseFault (k : FaultKind) (w : Option Word) (a : Option Nat) (s : State) (q : Nat) : memRead (raiseFault k w a s) q = memRead s q := rfl
@[simp] theorem pixel_raiseFault (k : FaultKind) (w : Option Word) (a : Option Nat) (s : State) (qx : Fin 64) (qy : Fin 32) : pixel (raiseFault k w a s) qx qy = pixel s qx qy := rfl
@[simp] theorem keyPressed_raiseFault (k : FaultKind) (w : Option Word) (a : Option Nat) (s : State) (q : Nibble) : keyPressed (raiseFault k w a s) q = keyPressed s q := rfl
@[simp] theorem readV_raiseIn (i : Instr) (k : FaultKind) (a : Option Nat) (s : State) (q : Reg) : readV (raiseIn i k a s) q = readV s q := rfl
@[simp] theorem memRead_raiseIn (i : Instr) (k : FaultKind) (a : Option Nat) (s : State) (q : Nat) : memRead (raiseIn i k a s) q = memRead s q := rfl
@[simp] theorem pixel_raiseIn (i : Instr) (k : FaultKind) (a : Option Nat) (s : State) (qx : Fin 64) (qy : Fin 32) : pixel (raiseIn i k a s) qx qy = pixel s qx qy := rfl
@[simp] theorem keyPressed_raiseIn (i : Instr) (k : FaultKind) (a : Option Nat) (s : State) (q : Nibble) : keyPressed (raiseIn i k a s) q = keyPressed s q := rfl
@[simp] theorem readV_skipIf (c : Bool) (s : State) (q : Reg) : readV (skipIf c s) q = readV s q := by cases c <;> rfl
@[simp] theorem memRead_skipIf (c : Bool) (s : State) (q : Nat) : memRead (skipIf c s) q = memRead s q := by cases c <;> rfl
@[simp] theorem pixel_skipIf (c : Bool) (s : State) (qx : Fin 64) (qy : Fin 32) : pixel (skipIf c s) qx qy = pixel s qx qy := by
  cases c <;> rfl

end Sys2Proof.Machine
end

