-- ==== Sys2Proof/Laws/Memory.lean ====
section
/-! SUPPORT. Memory: a read after a write, and every memory operation keeps the canonical form. -/

namespace Sys2Proof.Machine

theorem Memory.read_insert (m : Memory) (a b : Nat) (v : Byte) (h : ∀ c ∈ m, c.1 ≠ a) :
    Memory.read (Memory.insert a v m) b = if b = a then v else Memory.read m b := by
  induction m with
  | nil => simp [Memory.insert, Memory.read]
  | cons c rest ih =>
    obtain ⟨k, w⟩ := c
    have hk : k ≠ a := h (k, w) (by simp)
    have ih := ih fun c hc => h c (by simp [hc])
    by_cases hlt : a < k
    · simp [Memory.insert, hlt, Memory.read]
    · simp only [Memory.insert, hlt, if_false, Memory.read, ih]
      by_cases hb : b = k
      · subst hb; simp [hk]
      · simp [hb]

theorem Memory.read_erase (m : Memory) (a b : Nat) :
    Memory.read (Memory.erase m a) b = if b = a then resetByte a else Memory.read m b := by
  induction m with
  | nil => by_cases h : b = a <;> simp [Memory.erase, Memory.read, h]
  | cons c rest ih =>
    obtain ⟨k, w⟩ := c
    simp only [Memory.erase, List.filter_cons] at ih ⊢
    by_cases hk : k = a
    · subst hk
      simp only [bne_self_eq_false, Bool.false_eq_true, if_false, ih, Memory.read]
      by_cases hb : b = k <;> simp [hb]
    · simp only [bne_iff_ne, ne_eq, hk, not_false_eq_true, if_true, Memory.read, ih]
      by_cases hb : b = k
      · subst hb; simp [hk]
      · simp [hb]

theorem Memory.erase_ne (m : Memory) (a : Nat) : ∀ c ∈ Memory.erase m a, c.1 ≠ a := by
  intro c hc
  simpa using (List.mem_filter.mp hc).2

/-- A read returns the latest write to that byte, and a write leaves every other byte alone (20_memory.md R41). -/
theorem Memory.read_write (m : Memory) (a b : Nat) (v : Byte) :
    Memory.read (Memory.write m a v) b = if b = a then v else Memory.read m b := by
  unfold Memory.write
  split
  · rename_i h; rw [Memory.read_erase, h]
  · rw [Memory.read_insert _ _ _ _ (Memory.erase_ne m a), Memory.read_erase]
    by_cases hb : b = a <;> simp [hb]

/-! ## The canonical form -/

theorem Memory.wf_cons (a : Nat) (v : Byte) (rest : Memory) :
    Memory.wf ((a, v) :: rest) = true ↔
      a < 4096 ∧ v ≠ resetByte a ∧ (∀ c ∈ rest, a < c.1) ∧ Memory.wf rest = true := by
  simp [Memory.wf, and_assoc, List.all_eq_true]

theorem Memory.mem_insert (m : Memory) (a : Nat) (v : Byte) (c : Host.Cell) :
    c ∈ Memory.insert a v m ↔ c = (a, v) ∨ c ∈ m := by
  induction m with
  | nil => simp [Memory.insert]
  | cons d rest ih =>
    obtain ⟨k, w⟩ := d
    by_cases h : a < k
    · simp [Memory.insert, h]
    · simp only [Memory.insert, h, if_false, List.mem_cons, ih]
      tauto

theorem Memory.wf_erase (m : Memory) (a : Nat) (h : Memory.wf m = true) : Memory.wf (Memory.erase m a) = true := by
  induction m with
  | nil => rfl
  | cons c rest ih =>
    obtain ⟨k, w⟩ := c
    obtain ⟨hk, hw, hr, hrest⟩ := (Memory.wf_cons _ _ _).mp h
    have ih := ih hrest
    simp only [Memory.erase, List.filter_cons] at ih ⊢
    split
    · exact (Memory.wf_cons _ _ _).mpr ⟨hk, hw, fun c hc => hr c (List.mem_filter.mp hc).1, ih⟩
    · exact ih

theorem Memory.wf_insert (m : Memory) (a : Nat) (v : Byte) (ha : a < 4096) (hv : v ≠ resetByte a)
    (hne : ∀ c ∈ m, c.1 ≠ a) (h : Memory.wf m = true) : Memory.wf (Memory.insert a v m) = true := by
  induction m with
  | nil => simp [Memory.insert, Memory.wf, ha, hv]
  | cons c rest ih =>
    obtain ⟨k, w⟩ := c
    obtain ⟨hk, hw, hr, hrest⟩ := (Memory.wf_cons _ _ _).mp h
    by_cases hlt : a < k
    · simp only [Memory.insert, hlt, if_true]
      refine (Memory.wf_cons _ _ _).mpr ⟨ha, hv, ?_, h⟩
      intro c hc
      rcases List.mem_cons.mp hc with rfl | hc
      · exact hlt
      · exact hlt.trans (hr c hc)
    · simp only [Memory.insert, hlt, if_false]
      refine (Memory.wf_cons _ _ _).mpr ⟨hk, hw, ?_, ih (fun c hc => hne c (by simp [hc])) hrest⟩
      intro c hc
      rcases (Memory.mem_insert _ _ _ _).mp hc with rfl | hc
      · have := hne (k, w) (by simp); simp at this ⊢; omega
      · exact hr c hc

/-- A write to an address that exists keeps the canonical form. -/
theorem Memory.wf_write (m : Memory) (a : Nat) (v : Byte) (ha : a < 4096) (h : Memory.wf m = true) :
    Memory.wf (Memory.write m a v) = true := by
  unfold Memory.write
  split
  · exact Memory.wf_erase m a h
  · rename_i hv
    exact Memory.wf_insert _ a v ha hv (Memory.erase_ne m a) (Memory.wf_erase m a h)

/-- Reset memory lists nothing, and that is canonical. -/
theorem reset_mem_wf : Memory.wf State.reset.mem = true := rfl

/-! ## The machine's memory -/

theorem memRead_memWrite (a b : Nat) (v : Byte) (s : State) :
    memRead (memWrite a v s) b = if b = a then v else memRead s b := Memory.read_write _ _ _ _

@[simp] theorem memRead_memWrite_same (a : Nat) (v : Byte) (s : State) : memRead (memWrite a v s) a = v := by
  simp [memRead_memWrite]

/-- What a run of bytes leaves: the list's bytes in their places, every other byte as before. -/
theorem memRead_memWriteList (l : List Byte) (a b : Nat) (s : State) :
    memRead (memWriteList a l s) b = if a ≤ b then l.getD (b - a) (memRead s b) else memRead s b := by
  induction l generalizing a s with
  | nil => simp [memWriteList]
  | cons v rest ih =>
    simp only [memWriteList, ih, memRead_memWrite]
    by_cases h1 : a + 1 ≤ b
    · have : b - a = (b - (a + 1)) + 1 := by omega
      have hne : b ≠ a := by omega
      simp [h1, this, hne, show a ≤ b by omega]
    · by_cases h2 : b = a
      · subst h2; simp
      · simp [h1, h2, show ¬ a ≤ b by omega]

theorem memWriteList_wf (l : List Byte) (a : Nat) (s : State) (ha : a + l.length ≤ 4096)
    (h : Memory.wf s.mem = true) : Memory.wf (memWriteList a l s).mem = true := by
  induction l generalizing a s with
  | nil => exact h
  | cons v rest ih =>
    simp only [List.length_cons] at ha
    exact ih (a + 1) (memWrite a v s) (by omega) (Memory.wf_write _ _ _ (by omega) h)

end Sys2Proof.Machine
end

