-- ==== Sys2Proof/Laws/Operands.lean ====
section
/-! SUPPORT. What each operand form and each flag is, as a number. -/

namespace Sys2Proof.Machine

@[simp] theorem addrOf_toNat (nnn : Addr12) : (addrOf nnn).toNat = nnn.toNat := by
  have := nnn.isLt
  simp [addrOf]; omega

theorem baseI_eq (s : State) : baseI s = s.I.toNat := rfl

@[simp] theorem keyOf_toNat (v : Byte) : (keyOf v).toNat = v.toNat % 16 := by simp [keyOf]

theorem keyPressed_keyOf (s : State) (v : Byte) : keyPressed s (keyOf v) = s.keys[v.toNat % 16]'(by omega) := by
  simp [keyPressed]

theorem glyphAddr_toNat (v : Byte) : (glyphAddr v).toNat = 0x050 + 5 * v.toNat := by
  have := v.isLt
  simp only [glyphAddr, Config.fontBase, BitVec.toNat_ofNat]; omega

theorem shiftOperand_vx (s : State) (x y : Reg) (h : s.params.shiftSource = .vx) : shiftOperand s x y = readV s x := by
  simp [shiftOperand, h]

theorem shiftOperand_vy (s : State) (x y : Reg) (h : s.params.shiftSource = .vy) : shiftOperand s x y = readV s y := by
  simp [shiftOperand, h]

@[simp] theorem shiftOperand_same (s : State) (x : Reg) : shiftOperand s x x = readV s x := by
  unfold shiftOperand; split <;> rfl

theorem flagByte_toNat (b : Bool) : (flagByte b).toNat = if b then 1 else 0 := by cases b <;> rfl

/-- The source's two wordings of the carry agree: the wrapped sum is below the addend exactly when the sum exceeds 255 (R79). -/
theorem addFlag_toNat (a b : Byte) : (addFlag a b).toNat = if a.toNat + b.toNat > 255 then 1 else 0 := by
  have ha := a.isLt
  have hb := b.isLt
  simp only [addFlag, flagByte_toNat, BitVec.toNat_add, decide_eq_true_eq]
  split <;> split <;> omega

theorem subFlag_toNat (a b : Byte) : (subFlag a b).toNat = if b.toNat < a.toNat then 1 else 0 := by
  simp [subFlag, flagByte_toNat]

theorem shrFlag_toNat (v : Byte) : (shrFlag v).toNat = v.toNat % 2 := by
  simp [shrFlag, Nat.and_one_is_mod]

theorem shlFlag_toNat (v : Byte) : (shlFlag v).toNat = v.toNat / 128 := by
  have := v.isLt
  simp [shlFlag, Nat.and_one_is_mod, Nat.shiftRight_eq_div_pow]; omega

end Sys2Proof.Machine
end

