-- ==== Sys2Proof/Laws/Ops.lean ====
section
/-! SUPPORT. One lemma for each shared operation, saying everything it can do; later proofs cite it and do not unfold it. -/

namespace Sys2Proof.Machine

/-! ## Registers -/

theorem readV_writeV (r q : Reg) (v : Byte) (s : State) : readV (writeV r v s) q = if q = r then v else readV s q := by
  simp only [readV, writeV, Vector.getElem_set]
  by_cases h : q = r
  · subst h; simp
  · have : r.toNat ≠ q.toNat := fun e => h (BitVec.eq_of_toNat_eq e.symm)
    simp [h, this]

@[simp] theorem readV_writeV_same (r : Reg) (v : Byte) (s : State) : readV (writeV r v s) r = v := by
  simp [readV_writeV]

theorem readV_writeResultFlag (x q : Reg) (a f : Byte) (s : State) :
    readV (writeResultFlag x a f s) q = if q = flagReg then f else if q = x then a else readV s q := by
  simp [writeResultFlag, readV_writeV]

/-! ## The stack -/

/-- A push succeeds exactly when a slot is free, and then writes that slot and `sp` alone. -/
theorem push?_eq (v : Word) (s : State) :
    push? v s = if h : s.sp.val < 16 then
      some { s with stack := s.stack.set s.sp.val v h, sp := ⟨s.sp.val + 1, by omega⟩ } else none := rfl

/-- A pop succeeds exactly when a slot is occupied, and then writes `sp` alone. -/
theorem pop?_eq (s : State) :
    pop? s = if h : 0 < s.sp.val then
      some (s.stack[s.sp.val - 1]'(by omega), { s with sp := ⟨s.sp.val - 1, by omega⟩ }) else none := rfl

/-! ## The framebuffer -/

theorem pixel_setPixel (px qx : Fin 64) (py qy : Fin 32) (b : Bool) (s : State) :
    pixel (setPixel px py b s) qx qy = if qx = px ∧ qy = py then b else pixel s qx qy := by
  simp only [pixel, setPixel, Vector.getElem_set]
  by_cases hx : qx = px
  · subst hx
    by_cases hy : qy = py
    · subst hy; simp
    · have : py.val ≠ qy.val := fun e => hy (Fin.ext e.symm)
      simp [hy, this]
  · have : px.val ≠ qx.val := fun e => hx (Fin.ext e.symm)
    simp [hx, this]

@[simp] theorem pixel_clearScreen (s : State) (px : Fin 64) (py : Fin 32) : pixel (clearScreen s) px py = false := by
  simp [pixel, blankScreen]

/-! ## Timers and keys -/

theorem decTimer_toNat (t : Byte) : (decTimer t).toNat = t.toNat - 1 := by
  unfold decTimer
  split
  · rename_i h; subst h; rfl
  · rename_i h
    have : t.toNat ≠ 0 := fun e => h (BitVec.eq_of_toNat_eq e)
    have := t.isLt
    simp only [BitVec.toNat_sub]
    simp
    omega

@[simp] theorem noKeys_get (k : Nat) (h : k < 16) : noKeys[k] = false := by simp [noKeys]

/-! ## The range check and the fault of an access -/

theorem checkRange_none (lo hi : Nat) (h : hi ≤ 0xFFF) : checkRange lo hi = none := by
  simp [checkRange]; omega

theorem checkRange_some (lo hi : Nat) (h : 0xFFF < hi) : checkRange lo hi = some (max lo 0x1000) := by
  simp [checkRange]; omega

theorem withRange_ok (i : Instr) (lo hi : Nat) (f : State → State) (s : State) (h : hi ≤ 0xFFF) :
    withRange i lo hi f s = f s := by
  simp [withRange, checkRange_none lo hi h]

theorem withRange_fault (i : Instr) (lo hi : Nat) (f : State → State) (s : State) (h : 0xFFF < hi) :
    withRange i lo hi f s = raiseIn i .memoryOutOfRange (some (max lo 0x1000)) s := by
  simp [withRange, checkRange_some lo hi h]

/-! ## The fetch -/

theorem fetch_ok (s : State) (h : s.pc.toNat ≤ 0xFFE) :
    fetch s = .ok (joinBytes (memRead s s.pc.toNat) (memRead s (s.pc.toNat + 1))) := by
  simp [fetch, checkRange_none _ _ (show s.pc.toNat + 1 ≤ 0xFFF by omega)]

theorem fetch_error (s : State) (h : 0xFFE < s.pc.toNat) : fetch s = .error (max s.pc.toNat 0x1000) := by
  simp [fetch, checkRange_some _ _ (show 0xFFF < s.pc.toNat + 1 by omega)]

/-! ## Loops -/

@[simp] theorem forRange_zero (f : Nat → State → State) (s : State) : forRange 0 f s = s := rfl

theorem forRange_succ (n : Nat) (f : Nat → State → State) (s : State) :
    forRange (n + 1) f s = f n (forRange n f s) := rfl

/-- What each pass keeps, the loop keeps. -/
theorem forRange_keeps {α : Sort _} (g : State → α) (f : Nat → State → State) (h : ∀ k s, g (f k s) = g s) (n : Nat) (s : State) :
    g (forRange n f s) = g s := by
  induction n with
  | zero => rfl
  | succ n ih => rw [forRange_succ, h, ih]

/-- What each pass commutes with, the loop commutes with. -/
theorem forRange_comm (g : State → State) (f : Nat → State → State) (h : ∀ k s, f k (g s) = g (f k s)) (n : Nat) (s : State) :
    forRange n f (g s) = g (forRange n f s) := by
  induction n with
  | zero => rfl
  | succ n ih => rw [forRange_succ, ih, h, forRange_succ]

/-- An access commutes with what its effect and its fault commute with. -/
theorem withRange_comm (g f : State → State) (i : Instr) (lo hi : Nat) (s : State) (hf : f (g s) = g (f s))
    (hr : ∀ k a, raiseIn i k a (g s) = g (raiseIn i k a s)) :
    withRange i lo hi f (g s) = g (withRange i lo hi f s) := by
  unfold withRange
  split
  · exact hr _ _
  · exact hf

/-! ## Writing runs of bytes and registers -/

@[simp] theorem memWriteList_V (l : List Byte) (a : Nat) (s : State) : (memWriteList a l s).V = s.V := by
  induction l generalizing a s with
  | nil => rfl
  | cons v rest ih => simp [memWriteList, ih]
@[simp] theorem memWriteList_I (l : List Byte) (a : Nat) (s : State) : (memWriteList a l s).I = s.I := by
  induction l generalizing a s with
  | nil => rfl
  | cons v rest ih => simp [memWriteList, ih]
@[simp] theorem memWriteList_pc (l : List Byte) (a : Nat) (s : State) : (memWriteList a l s).pc = s.pc := by
  induction l generalizing a s with
  | nil => rfl
  | cons v rest ih => simp [memWriteList, ih]
@[simp] theorem memWriteList_stack (l : List Byte) (a : Nat) (s : State) : (memWriteList a l s).stack = s.stack := by
  induction l generalizing a s with
  | nil => rfl
  | cons v rest ih => simp [memWriteList, ih]
@[simp] theorem memWriteList_sp (l : List Byte) (a : Nat) (s : State) : (memWriteList a l s).sp = s.sp := by
  induction l generalizing a s with
  | nil => rfl
  | cons v rest ih => simp [memWriteList, ih]
@[simp] theorem memWriteList_fb (l : List Byte) (a : Nat) (s : State) : (memWriteList a l s).fb = s.fb := by
  induction l generalizing a s with
  | nil => rfl
  | cons v rest ih => simp [memWriteList, ih]
@[simp] theorem memWriteList_dt (l : List Byte) (a : Nat) (s : State) : (memWriteList a l s).dt = s.dt := by
  induction l generalizing a s with
  | nil => rfl
  | cons v rest ih => simp [memWriteList, ih]
@[simp] theorem memWriteList_st (l : List Byte) (a : Nat) (s : State) : (memWriteList a l s).st = s.st := by
  induction l generalizing a s with
  | nil => rfl
  | cons v rest ih => simp [memWriteList, ih]
@[simp] theorem memWriteList_keys (l : List Byte) (a : Nat) (s : State) : (memWriteList a l s).keys = s.keys := by
  induction l generalizing a s with
  | nil => rfl
  | cons v rest ih => simp [memWriteList, ih]
@[simp] theorem memWriteList_halt (l : List Byte) (a : Nat) (s : State) : (memWriteList a l s).halt = s.halt := by
  induction l generalizing a s with
  | nil => rfl
  | cons v rest ih => simp [memWriteList, ih]
@[simp] theorem memWriteList_params (l : List Byte) (a : Nat) (s : State) : (memWriteList a l s).params = s.params := by
  induction l generalizing a s with
  | nil => rfl
  | cons v rest ih => simp [memWriteList, ih]

@[simp] theorem readV_memWriteList (l : List Byte) (a : Nat) (s : State) (q : Reg) :
    readV (memWriteList a l s) q = readV s q := by simp [readV]

@[simp] theorem pixel_memWriteList (l : List Byte) (a : Nat) (s : State) (qx : Fin 64) (qy : Fin 32) :
    pixel (memWriteList a l s) qx qy = pixel s qx qy := by simp [pixel]

@[simp] theorem storeRegs_V (n : Nat) (s : State) : (storeRegs n s).V = s.V :=
  forRange_keeps (·.V) storeReg (fun _ _ => rfl) n s
@[simp] theorem storeRegs_I (n : Nat) (s : State) : (storeRegs n s).I = s.I :=
  forRange_keeps (·.I) storeReg (fun _ _ => rfl) n s
@[simp] theorem storeRegs_pc (n : Nat) (s : State) : (storeRegs n s).pc = s.pc :=
  forRange_keeps (·.pc) storeReg (fun _ _ => rfl) n s
@[simp] theorem storeRegs_stack (n : Nat) (s : State) : (storeRegs n s).stack = s.stack :=
  forRange_keeps (·.stack) storeReg (fun _ _ => rfl) n s
@[simp] theorem storeRegs_sp (n : Nat) (s : State) : (storeRegs n s).sp = s.sp :=
  forRange_keeps (·.sp) storeReg (fun _ _ => rfl) n s
@[simp] theorem storeRegs_fb (n : Nat) (s : State) : (storeRegs n s).fb = s.fb :=
  forRange_keeps (·.fb) storeReg (fun _ _ => rfl) n s
@[simp] theorem storeRegs_dt (n : Nat) (s : State) : (storeRegs n s).dt = s.dt :=
  forRange_keeps (·.dt) storeReg (fun _ _ => rfl) n s
@[simp] theorem storeRegs_st (n : Nat) (s : State) : (storeRegs n s).st = s.st :=
  forRange_keeps (·.st) storeReg (fun _ _ => rfl) n s
@[simp] theorem storeRegs_keys (n : Nat) (s : State) : (storeRegs n s).keys = s.keys :=
  forRange_keeps (·.keys) storeReg (fun _ _ => rfl) n s
@[simp] theorem storeRegs_halt (n : Nat) (s : State) : (storeRegs n s).halt = s.halt :=
  forRange_keeps (·.halt) storeReg (fun _ _ => rfl) n s
@[simp] theorem storeRegs_params (n : Nat) (s : State) : (storeRegs n s).params = s.params :=
  forRange_keeps (·.params) storeReg (fun _ _ => rfl) n s
@[simp] theorem loadRegs_mem (n : Nat) (s : State) : (loadRegs n s).mem = s.mem :=
  forRange_keeps (·.mem) loadReg (fun _ _ => rfl) n s
@[simp] theorem loadRegs_I (n : Nat) (s : State) : (loadRegs n s).I = s.I :=
  forRange_keeps (·.I) loadReg (fun _ _ => rfl) n s
@[simp] theorem loadRegs_pc (n : Nat) (s : State) : (loadRegs n s).pc = s.pc :=
  forRange_keeps (·.pc) loadReg (fun _ _ => rfl) n s
@[simp] theorem loadRegs_stack (n : Nat) (s : State) : (loadRegs n s).stack = s.stack :=
  forRange_keeps (·.stack) loadReg (fun _ _ => rfl) n s
@[simp] theorem loadRegs_sp (n : Nat) (s : State) : (loadRegs n s).sp = s.sp :=
  forRange_keeps (·.sp) loadReg (fun _ _ => rfl) n s
@[simp] theorem loadRegs_fb (n : Nat) (s : State) : (loadRegs n s).fb = s.fb :=
  forRange_keeps (·.fb) loadReg (fun _ _ => rfl) n s
@[simp] theorem loadRegs_dt (n : Nat) (s : State) : (loadRegs n s).dt = s.dt :=
  forRange_keeps (·.dt) loadReg (fun _ _ => rfl) n s
@[simp] theorem loadRegs_st (n : Nat) (s : State) : (loadRegs n s).st = s.st :=
  forRange_keeps (·.st) loadReg (fun _ _ => rfl) n s
@[simp] theorem loadRegs_keys (n : Nat) (s : State) : (loadRegs n s).keys = s.keys :=
  forRange_keeps (·.keys) loadReg (fun _ _ => rfl) n s
@[simp] theorem loadRegs_halt (n : Nat) (s : State) : (loadRegs n s).halt = s.halt :=
  forRange_keeps (·.halt) loadReg (fun _ _ => rfl) n s
@[simp] theorem loadRegs_params (n : Nat) (s : State) : (loadRegs n s).params = s.params :=
  forRange_keeps (·.params) loadReg (fun _ _ => rfl) n s

@[simp] theorem readV_storeRegs (n : Nat) (s : State) (q : Reg) : readV (storeRegs n s) q = readV s q :=
  forRange_keeps (readV · q) storeReg (fun _ _ => rfl) n s

@[simp] theorem pixel_storeRegs (n : Nat) (s : State) (qx : Fin 64) (qy : Fin 32) :
    pixel (storeRegs n s) qx qy = pixel s qx qy := forRange_keeps (pixel · qx qy) storeReg (fun _ _ => rfl) n s

@[simp] theorem memRead_loadRegs (n : Nat) (s : State) (q : Nat) : memRead (loadRegs n s) q = memRead s q :=
  forRange_keeps (memRead · q) loadReg (fun _ _ => rfl) n s

@[simp] theorem pixel_loadRegs (n : Nat) (s : State) (qx : Fin 64) (qy : Fin 32) :
    pixel (loadRegs n s) qx qy = pixel s qx qy := forRange_keeps (pixel · qx qy) loadReg (fun _ _ => rfl) n s

theorem regOf_toNat (k : Nat) (h : k < 16) : (regOf k).toNat = k := by
  simp [regOf]; omega

theorem regOf_of_toNat (r : Reg) : regOf r.toNat = r := by simp [regOf]

/-- A register-range store leaves `V[k]` at `I + k` for each stored register and every other byte as before. -/
theorem memRead_storeRegs (n : Nat) (s : State) (b : Nat) :
    memRead (storeRegs n s) b =
      if baseI s ≤ b ∧ b < baseI s + n then readV s (regOf (b - baseI s)) else memRead s b := by
  induction n with
  | zero => simp [storeRegs, show ¬ (baseI s ≤ b ∧ b < baseI s) by omega]
  | succ n ih =>
    have hI : baseI (storeRegs n s) = baseI s := by simp [baseI]
    have hu : storeRegs (n + 1) s =
        memWrite (baseI (storeRegs n s) + n) (readV (storeRegs n s) (regOf n)) (storeRegs n s) := rfl
    rw [hu, memRead_memWrite, ih, hI, readV_storeRegs]
    by_cases h : b = baseI s + n
    · subst h; simp
    · simp only [h, if_false]
      by_cases h2 : baseI s ≤ b ∧ b < baseI s + n
      · simp [h2, show b < baseI s + (n + 1) by omega]
      · rw [if_neg h2, if_neg (by omega)]

/-- A register-range load leaves the byte at `I + k` in `V[k]` for each loaded register and every other register as before. -/
theorem readV_loadRegs (n : Nat) (hn : n ≤ 16) (s : State) (q : Reg) :
    readV (loadRegs n s) q = if q.toNat < n then memRead s (baseI s + q.toNat) else readV s q := by
  induction n with
  | zero => simp [loadRegs]
  | succ n ih =>
    have hI : baseI (loadRegs n s) = baseI s := by simp [baseI]
    have hu : loadRegs (n + 1) s =
        writeV (regOf n) (memRead (loadRegs n s) (baseI (loadRegs n s) + n)) (loadRegs n s) := rfl
    rw [hu, readV_writeV, ih (by omega), hI, memRead_loadRegs]
    by_cases h : q = regOf n
    · subst h; simp [regOf_toNat n (by omega)]
    · have hne : q.toNat ≠ n := fun e => h (by rw [← e, regOf_of_toNat])
      simp only [h, if_false]
      by_cases h2 : q.toNat < n
      · simp [h2, show q.toNat < n + 1 by omega]
      · rw [if_neg h2, if_neg (by omega)]

theorem storeRegs_wf (n : Nat) (s : State) (hr : baseI s + n ≤ 4096) (h : Memory.wf s.mem = true) :
    Memory.wf (storeRegs n s).mem = true := by
  induction n with
  | zero => exact h
  | succ n ih =>
    have hI : baseI (storeRegs n s) = baseI s := by simp [baseI]
    exact Memory.wf_write _ (baseI (storeRegs n s) + n) _ (by rw [hI]; omega) (ih (by omega))

/-! ## Drawing: everything but `V` and the framebuffer is left alone -/

@[simp] theorem drawPixel_mem (x0 y0 r : Nat) (b : Byte) (c : Nat) (s : State) : (drawPixel x0 y0 r b c s).mem = s.mem := by
  unfold drawPixel; repeat' split
  all_goals rfl
@[simp] theorem drawRow_mem (x0 y0 r : Nat) (s : State) : (drawRow x0 y0 r s).mem = s.mem :=
  forRange_keeps (·.mem) _ (fun _ _ => drawPixel_mem ..) 8 s
@[simp] theorem drawSprite_mem (x0 y0 n : Nat) (s : State) : (drawSprite x0 y0 n s).mem = s.mem :=
  forRange_keeps (·.mem) _ (fun _ _ => drawRow_mem ..) n s
@[simp] theorem drawPixel_I (x0 y0 r : Nat) (b : Byte) (c : Nat) (s : State) : (drawPixel x0 y0 r b c s).I = s.I := by
  unfold drawPixel; repeat' split
  all_goals rfl
@[simp] theorem drawRow_I (x0 y0 r : Nat) (s : State) : (drawRow x0 y0 r s).I = s.I :=
  forRange_keeps (·.I) _ (fun _ _ => drawPixel_I ..) 8 s
@[simp] theorem drawSprite_I (x0 y0 n : Nat) (s : State) : (drawSprite x0 y0 n s).I = s.I :=
  forRange_keeps (·.I) _ (fun _ _ => drawRow_I ..) n s
@[simp] theorem drawPixel_pc (x0 y0 r : Nat) (b : Byte) (c : Nat) (s : State) : (drawPixel x0 y0 r b c s).pc = s.pc := by
  unfold drawPixel; repeat' split
  all_goals rfl
@[simp] theorem drawRow_pc (x0 y0 r : Nat) (s : State) : (drawRow x0 y0 r s).pc = s.pc :=
  forRange_keeps (·.pc) _ (fun _ _ => drawPixel_pc ..) 8 s
@[simp] theorem drawSprite_pc (x0 y0 n : Nat) (s : State) : (drawSprite x0 y0 n s).pc = s.pc :=
  forRange_keeps (·.pc) _ (fun _ _ => drawRow_pc ..) n s
@[simp] theorem drawPixel_stack (x0 y0 r : Nat) (b : Byte) (c : Nat) (s : State) : (drawPixel x0 y0 r b c s).stack = s.stack := by
  unfold drawPixel; repeat' split
  all_goals rfl
@[simp] theorem drawRow_stack (x0 y0 r : Nat) (s : State) : (drawRow x0 y0 r s).stack = s.stack :=
  forRange_keeps (·.stack) _ (fun _ _ => drawPixel_stack ..) 8 s
@[simp] theorem drawSprite_stack (x0 y0 n : Nat) (s : State) : (drawSprite x0 y0 n s).stack = s.stack :=
  forRange_keeps (·.stack) _ (fun _ _ => drawRow_stack ..) n s
@[simp] theorem drawPixel_sp (x0 y0 r : Nat) (b : Byte) (c : Nat) (s : State) : (drawPixel x0 y0 r b c s).sp = s.sp := by
  unfold drawPixel; repeat' split
  all_goals rfl
@[simp] theorem drawRow_sp (x0 y0 r : Nat) (s : State) : (drawRow x0 y0 r s).sp = s.sp :=
  forRange_keeps (·.sp) _ (fun _ _ => drawPixel_sp ..) 8 s
@[simp] theorem drawSprite_sp (x0 y0 n : Nat) (s : State) : (drawSprite x0 y0 n s).sp = s.sp :=
  forRange_keeps (·.sp) _ (fun _ _ => drawRow_sp ..) n s
@[simp] theorem drawPixel_dt (x0 y0 r : Nat) (b : Byte) (c : Nat) (s : State) : (drawPixel x0 y0 r b c s).dt = s.dt := by
  unfold drawPixel; repeat' split
  all_goals rfl
@[simp] theorem drawRow_dt (x0 y0 r : Nat) (s : State) : (drawRow x0 y0 r s).dt = s.dt :=
  forRange_keeps (·.dt) _ (fun _ _ => drawPixel_dt ..) 8 s
@[simp] theorem drawSprite_dt (x0 y0 n : Nat) (s : State) : (drawSprite x0 y0 n s).dt = s.dt :=
  forRange_keeps (·.dt) _ (fun _ _ => drawRow_dt ..) n s
@[simp] theorem drawPixel_st (x0 y0 r : Nat) (b : Byte) (c : Nat) (s : State) : (drawPixel x0 y0 r b c s).st = s.st := by
  unfold drawPixel; repeat' split
  all_goals rfl
@[simp] theorem drawRow_st (x0 y0 r : Nat) (s : State) : (drawRow x0 y0 r s).st = s.st :=
  forRange_keeps (·.st) _ (fun _ _ => drawPixel_st ..) 8 s
@[simp] theorem drawSprite_st (x0 y0 n : Nat) (s : State) : (drawSprite x0 y0 n s).st = s.st :=
  forRange_keeps (·.st) _ (fun _ _ => drawRow_st ..) n s
@[simp] theorem drawPixel_keys (x0 y0 r : Nat) (b : Byte) (c : Nat) (s : State) : (drawPixel x0 y0 r b c s).keys = s.keys := by
  unfold drawPixel; repeat' split
  all_goals rfl
@[simp] theorem drawRow_keys (x0 y0 r : Nat) (s : State) : (drawRow x0 y0 r s).keys = s.keys :=
  forRange_keeps (·.keys) _ (fun _ _ => drawPixel_keys ..) 8 s
@[simp] theorem drawSprite_keys (x0 y0 n : Nat) (s : State) : (drawSprite x0 y0 n s).keys = s.keys :=
  forRange_keeps (·.keys) _ (fun _ _ => drawRow_keys ..) n s
@[simp] theorem drawPixel_halt (x0 y0 r : Nat) (b : Byte) (c : Nat) (s : State) : (drawPixel x0 y0 r b c s).halt = s.halt := by
  unfold drawPixel; repeat' split
  all_goals rfl
@[simp] theorem drawRow_halt (x0 y0 r : Nat) (s : State) : (drawRow x0 y0 r s).halt = s.halt :=
  forRange_keeps (·.halt) _ (fun _ _ => drawPixel_halt ..) 8 s
@[simp] theorem drawSprite_halt (x0 y0 n : Nat) (s : State) : (drawSprite x0 y0 n s).halt = s.halt :=
  forRange_keeps (·.halt) _ (fun _ _ => drawRow_halt ..) n s
@[simp] theorem drawPixel_params (x0 y0 r : Nat) (b : Byte) (c : Nat) (s : State) : (drawPixel x0 y0 r b c s).params = s.params := by
  unfold drawPixel; repeat' split
  all_goals rfl
@[simp] theorem drawRow_params (x0 y0 r : Nat) (s : State) : (drawRow x0 y0 r s).params = s.params :=
  forRange_keeps (·.params) _ (fun _ _ => drawPixel_params ..) 8 s
@[simp] theorem drawSprite_params (x0 y0 n : Nat) (s : State) : (drawSprite x0 y0 n s).params = s.params :=
  forRange_keeps (·.params) _ (fun _ _ => drawRow_params ..) n s

/-- A draw writes no register but the flag register. -/
theorem readV_drawSprite_ne (x0 y0 n : Nat) (s : State) (q : Reg) (h : q ≠ flagReg) :
    readV (drawSprite x0 y0 n s) q = readV s q := by
  refine forRange_keeps (readV · q) _ (fun r t => ?_) n s
  refine forRange_keeps (readV · q) _ (fun c u => ?_) 8 t
  unfold drawPixel
  repeat' split
  · simp [readV_writeV, h]
  all_goals rfl

end Sys2Proof.Machine
end

