-- ==== Sys2Proof/Laws/Draw.lean ====
section
/-! SUPPORT. What drawing a sprite does, in closed form: first one pixel, then a row, then the whole sprite (40_graphics.md R59, R60). -/

namespace Sys2Proof.Machine

/-- The pixels that the first `k` columns of a row toggle. -/
def RowHits (x0 y0 r : Nat) (b : Byte) (k : Nat) (px : Fin 64) (py : Fin 32) : Prop :=
  py.val = y0 + r ∧ x0 ≤ px.val ∧ px.val < x0 + k ∧ spriteBit b (px.val - x0) = true

/-- The pixels that the first `n` rows of a sprite toggle. -/
def SpriteHits (s : State) (x0 y0 n : Nat) (px : Fin 64) (py : Fin 32) : Prop :=
  y0 ≤ py.val ∧ py.val < y0 + n ∧ x0 ≤ px.val ∧ px.val < x0 + 8 ∧
    spriteBit (memRead s (baseI s + (py.val - y0))) (px.val - x0) = true

/-- The order of R60. -/
def NotAfter (p q : Fin 64 × Fin 32) : Prop := p.2 < q.2 ∨ (p.2 = q.2 ∧ p.1 ≤ q.1)

/-- A draw toggles the pixels that `hits` holds of, and leaves in `VF` what the last of them writes, or its old value when there is
none. -/
structure Draws (hits : Fin 64 → Fin 32 → Prop) (s t : State) : Prop where
  toggled : ∀ px py, hits px py → pixel t px py = !pixel s px py
  kept : ∀ px py, ¬ hits px py → pixel t px py = pixel s px py
  noFlag : (∀ px py, ¬ hits px py) → readV t flagReg = readV s flagReg
  flag : ∀ px py, hits px py → (∀ qx qy, hits qx qy → NotAfter (qx, qy) (px, py)) →
    readV t flagReg = drawFlag s.params.drawVfMode (pixel s px py)

/-- Nothing drawn. -/
theorem Draws.refl {hits : Fin 64 → Fin 32 → Prop} (h : ∀ px py, ¬ hits px py) (s : State) : Draws hits s s :=
  ⟨fun px py hp => absurd hp (h px py), fun _ _ _ => rfl, fun _ => rfl, fun px py hp => absurd hp (h px py)⟩

/-- One draw after another, of pixels that all come later. -/
theorem Draws.trans {A B C : Fin 64 → Fin 32 → Prop} {s t u : State} (hA : Draws A s t) (hB : Draws B t u)
    (hC : ∀ px py, C px py ↔ A px py ∨ B px py)
    (hlater : ∀ px py qx qy, A px py → B qx qy → ¬ NotAfter (qx, qy) (px, py))
    (hmode : t.params = s.params) : Draws C s u := by
  have hdis : ∀ px py, A px py → ¬ B px py := fun px py ha hb =>
    hlater px py px py ha hb (Or.inr ⟨rfl, le_refl _⟩)
  refine ⟨fun px py h => ?_, fun px py h => ?_, fun h => ?_, fun px py h hmax => ?_⟩
  · rcases (hC px py).mp h with ha | hb
    · rw [hB.kept _ _ (hdis _ _ ha), hA.toggled _ _ ha]
    · rw [hB.toggled _ _ hb, hA.kept _ _ (fun ha => hdis _ _ ha hb)]
  · rw [hB.kept _ _ (fun hb => h ((hC _ _).mpr (Or.inr hb))), hA.kept _ _ (fun ha => h ((hC _ _).mpr (Or.inl ha)))]
  · rw [hB.noFlag (fun _ _ hb => h _ _ ((hC _ _).mpr (Or.inr hb))),
      hA.noFlag (fun _ _ ha => h _ _ ((hC _ _).mpr (Or.inl ha)))]
  · by_cases hb : ∃ qx qy, B qx qy
    · obtain ⟨qx, qy, hq⟩ := hb
      have hpB : B px py := by
        rcases (hC px py).mp h with ha | hb
        · exact absurd (hmax qx qy ((hC _ _).mpr (Or.inr hq))) (hlater _ _ _ _ ha hq)
        · exact hb
      rw [hB.flag px py hpB (fun a b hab => hmax a b ((hC _ _).mpr (Or.inr hab))), hmode,
        hA.kept _ _ (fun ha => hdis _ _ ha hpB)]
    · have hpA : A px py := ((hC px py).mp h).resolve_right (fun hp => hb ⟨px, py, hp⟩)
      rw [hB.noFlag (fun a b hab => hb ⟨a, b, hab⟩),
        hA.flag px py hpA (fun a b hab => hmax a b ((hC _ _).mpr (Or.inl hab)))]

/-- One column of a row. -/
theorem drawPixel_draws (x0 y0 r : Nat) (b : Byte) (c : Nat) (s : State) :
    Draws (fun px py => py.val = y0 + r ∧ px.val = x0 + c ∧ spriteBit b c = true) s (drawPixel x0 y0 r b c s) := by
  unfold drawPixel
  split
  · rename_i hbit
    split
    · rename_i hg
      refine ⟨fun px py h => ?_, fun px py h => ?_, fun h => ?_, fun px py h _ => ?_⟩
      · have hx : ⟨x0 + c, by omega⟩ = px := Fin.ext h.2.1.symm
        have hy : ⟨y0 + r, by omega⟩ = py := Fin.ext h.1.symm
        simp [pixel_setPixel, hx, hy]
      · rw [pixel_setPixel, if_neg]
        · rfl
        · rintro ⟨rfl, rfl⟩; exact h ⟨rfl, rfl, hbit⟩
      · exact absurd ⟨rfl, rfl, hbit⟩ (h ⟨x0 + c, by omega⟩ ⟨y0 + r, by omega⟩)
      · have hx : ⟨x0 + c, by omega⟩ = px := Fin.ext h.2.1.symm
        have hy : ⟨y0 + r, by omega⟩ = py := Fin.ext h.1.symm
        simp [hx, hy]
    · rename_i hg
      exact Draws.refl (fun px py h => hg ⟨by omega, by omega⟩) s
  · rename_i hbit
    exact Draws.refl (fun px py h => hbit h.2.2) s

/-- The first `k` columns of a row. -/
theorem drawColumns_draws (x0 y0 r : Nat) (b : Byte) (k : Nat) (s : State) :
    Draws (RowHits x0 y0 r b k) s (forRange k (drawPixel x0 y0 r b) s) := by
  induction k with
  | zero => exact Draws.refl (fun px py h => by unfold RowHits at h; omega) s
  | succ k ih =>
    refine ih.trans (drawPixel_draws x0 y0 r b k _) (fun px py => ?_) (fun px py qx qy ha hb => ?_)
      (forRange_keeps (·.params) (drawPixel x0 y0 r b) (fun _ _ => drawPixel_params ..) k s)
    · unfold RowHits
      constructor
      · rintro ⟨h1, h2, h3, h4⟩
        by_cases h : px.val = x0 + k
        · exact Or.inr ⟨h1, h, by rwa [show px.val - x0 = k by omega] at h4⟩
        · exact Or.inl ⟨h1, h2, by omega, h4⟩
      · rintro (⟨h1, h2, h3, h4⟩ | ⟨h1, h2, h3⟩)
        · exact ⟨h1, h2, by omega, h4⟩
        · exact ⟨h1, by omega, by omega, by rwa [show px.val - x0 = k by omega]⟩
    · obtain ⟨a1, a2, a3, -⟩ := ha
      obtain ⟨b1, b2, -⟩ := hb
      simp only [NotAfter, Fin.lt_def, Fin.le_def, Fin.ext_iff]
      omega

/-- A whole sprite. -/
theorem drawSprite_draws (x0 y0 n : Nat) (s : State) : Draws (SpriteHits s x0 y0 n) s (drawSprite x0 y0 n s) := by
  induction n with
  | zero => exact Draws.refl (fun px py h => by unfold SpriteHits at h; omega) s
  | succ n ih =>
    have hu : drawSprite x0 y0 (n + 1) s = drawRow x0 y0 n (drawSprite x0 y0 n s) := rfl
    have hb : memRead (drawSprite x0 y0 n s) (baseI (drawSprite x0 y0 n s) + n) = memRead s (baseI s + n) := by
      simp [memRead, baseI]
    rw [hu]
    refine ih.trans (drawColumns_draws x0 y0 n _ 8 _) (fun px py => ?_) (fun px py qx qy ha hb => ?_)
      (drawSprite_params ..)
    · rw [hb]
      unfold SpriteHits RowHits
      constructor
      · rintro ⟨h1, h2, h3, h4, h5⟩
        by_cases h : py.val = y0 + n
        · exact Or.inr ⟨h, h3, h4, by rwa [show py.val - y0 = n by omega] at h5⟩
        · exact Or.inl ⟨h1, by omega, h3, h4, h5⟩
      · rintro (⟨h1, h2, h3, h4, h5⟩ | ⟨h1, h2, h3, h4⟩)
        · exact ⟨h1, by omega, h3, h4, h5⟩
        · exact ⟨by omega, by omega, h2, h3, by rwa [show py.val - y0 = n by omega]⟩
    · obtain ⟨a1, a2, -⟩ := ha
      obtain ⟨b1, -⟩ := hb
      simp only [NotAfter, Fin.lt_def, Fin.le_def, Fin.ext_iff]
      omega

end Sys2Proof.Machine
end

