-- ==== Sys2Proof/Laws/PerInstr.lean ====
section
/-! SUPPORT. A fact about each instruction as syntax, one lemma per constructor. -/

namespace Sys2Proof.Laws.EncodesItsRow

open Sys2Proof

/-- The instruction's word has the fixed bits of its own row in the opcode map (30_encoding.md R50), and of no other row. -/
def Statement (i : Instr) : Prop :=
  ∀ r ∈ opcodeRows, r.matchesWord (encodeWord i) ↔ r.number = i.rowNumber

theorem cls : Statement (.cls) := by
  unfold Statement; decide

theorem ret : Statement (.ret) := by
  unfold Statement; decide

theorem jp (nnn : Addr12) : Statement (.jp nnn) := by
  simp [Statement, opcodeRows, encodeWord, Instr.rowNumber, mask_iff_N]
  simp [fieldOp, fieldNnn]

theorem call (nnn : Addr12) : Statement (.call nnn) := by
  simp [Statement, opcodeRows, encodeWord, Instr.rowNumber, mask_iff_N]
  simp [fieldOp, fieldNnn]

theorem seImm (x : Reg) (kk : Byte) : Statement (.seImm x kk) := by
  simp [Statement, opcodeRows, encodeWord, Instr.rowNumber, mask_iff_XK]
  simp [fieldOp, fieldX, fieldKk]

theorem sneImm (x : Reg) (kk : Byte) : Statement (.sneImm x kk) := by
  simp [Statement, opcodeRows, encodeWord, Instr.rowNumber, mask_iff_XK]
  simp [fieldOp, fieldX, fieldKk]

theorem seReg (x : Reg) (y : Reg) : Statement (.seReg x y) := by
  simp [Statement, opcodeRows, encodeWord, Instr.rowNumber, mask_iff_XYN]
  simp [fieldOp, fieldX, fieldY, fieldN]

theorem sneReg (x : Reg) (y : Reg) : Statement (.sneReg x y) := by
  simp [Statement, opcodeRows, encodeWord, Instr.rowNumber, mask_iff_XYN]
  simp [fieldOp, fieldX, fieldY, fieldN]

theorem ldImm (x : Reg) (kk : Byte) : Statement (.ldImm x kk) := by
  simp [Statement, opcodeRows, encodeWord, Instr.rowNumber, mask_iff_XK]
  simp [fieldOp, fieldX, fieldKk]

theorem addImm (x : Reg) (kk : Byte) : Statement (.addImm x kk) := by
  simp [Statement, opcodeRows, encodeWord, Instr.rowNumber, mask_iff_XK]
  simp [fieldOp, fieldX, fieldKk]

theorem ldReg (x : Reg) (y : Reg) : Statement (.ldReg x y) := by
  simp [Statement, opcodeRows, encodeWord, Instr.rowNumber, mask_iff_XYN]
  simp [fieldOp, fieldX, fieldY, fieldN]

theorem or (x : Reg) (y : Reg) : Statement (.or x y) := by
  simp [Statement, opcodeRows, encodeWord, Instr.rowNumber, mask_iff_XYN]
  simp [fieldOp, fieldX, fieldY, fieldN]

theorem and (x : Reg) (y : Reg) : Statement (.and x y) := by
  simp [Statement, opcodeRows, encodeWord, Instr.rowNumber, mask_iff_XYN]
  simp [fieldOp, fieldX, fieldY, fieldN]

theorem xor (x : Reg) (y : Reg) : Statement (.xor x y) := by
  simp [Statement, opcodeRows, encodeWord, Instr.rowNumber, mask_iff_XYN]
  simp [fieldOp, fieldX, fieldY, fieldN]

theorem addReg (x : Reg) (y : Reg) : Statement (.addReg x y) := by
  simp [Statement, opcodeRows, encodeWord, Instr.rowNumber, mask_iff_XYN]
  simp [fieldOp, fieldX, fieldY, fieldN]

theorem sub (x : Reg) (y : Reg) : Statement (.sub x y) := by
  simp [Statement, opcodeRows, encodeWord, Instr.rowNumber, mask_iff_XYN]
  simp [fieldOp, fieldX, fieldY, fieldN]

theorem subn (x : Reg) (y : Reg) : Statement (.subn x y) := by
  simp [Statement, opcodeRows, encodeWord, Instr.rowNumber, mask_iff_XYN]
  simp [fieldOp, fieldX, fieldY, fieldN]

theorem shr (x : Reg) (y : Reg) : Statement (.shr x y) := by
  simp [Statement, opcodeRows, encodeWord, Instr.rowNumber, mask_iff_XYN]
  simp [fieldOp, fieldX, fieldY, fieldN]

theorem shl (x : Reg) (y : Reg) : Statement (.shl x y) := by
  simp [Statement, opcodeRows, encodeWord, Instr.rowNumber, mask_iff_XYN]
  simp [fieldOp, fieldX, fieldY, fieldN]

theorem ldI (nnn : Addr12) : Statement (.ldI nnn) := by
  simp [Statement, opcodeRows, encodeWord, Instr.rowNumber, mask_iff_N]
  simp [fieldOp, fieldNnn]

theorem drw (x : Reg) (y : Reg) (n : Nibble) : Statement (.drw x y n) := by
  simp [Statement, opcodeRows, encodeWord, Instr.rowNumber, mask_iff_XYN]
  simp [fieldOp, fieldX, fieldY, fieldN]

theorem skp (x : Reg) : Statement (.skp x) := by
  simp [Statement, opcodeRows, encodeWord, Instr.rowNumber, mask_iff_XK]
  simp [fieldOp, fieldX, fieldKk]

theorem sknp (x : Reg) : Statement (.sknp x) := by
  simp [Statement, opcodeRows, encodeWord, Instr.rowNumber, mask_iff_XK]
  simp [fieldOp, fieldX, fieldKk]

theorem ldVDt (x : Reg) : Statement (.ldVDt x) := by
  simp [Statement, opcodeRows, encodeWord, Instr.rowNumber, mask_iff_XK]
  simp [fieldOp, fieldX, fieldKk]

theorem ldDtV (x : Reg) : Statement (.ldDtV x) := by
  simp [Statement, opcodeRows, encodeWord, Instr.rowNumber, mask_iff_XK]
  simp [fieldOp, fieldX, fieldKk]

theorem addI (x : Reg) : Statement (.addI x) := by
  simp [Statement, opcodeRows, encodeWord, Instr.rowNumber, mask_iff_XK]
  simp [fieldOp, fieldX, fieldKk]

theorem ldF (x : Reg) : Statement (.ldF x) := by
  simp [Statement, opcodeRows, encodeWord, Instr.rowNumber, mask_iff_XK]
  simp [fieldOp, fieldX, fieldKk]

theorem ldB (x : Reg) : Statement (.ldB x) := by
  simp [Statement, opcodeRows, encodeWord, Instr.rowNumber, mask_iff_XK]
  simp [fieldOp, fieldX, fieldKk]

theorem stRange (x : Reg) : Statement (.stRange x) := by
  simp [Statement, opcodeRows, encodeWord, Instr.rowNumber, mask_iff_XK]
  simp [fieldOp, fieldX, fieldKk]

theorem ldRange (x : Reg) : Statement (.ldRange x) := by
  simp [Statement, opcodeRows, encodeWord, Instr.rowNumber, mask_iff_XK]
  simp [fieldOp, fieldX, fieldKk]

end Sys2Proof.Laws.EncodesItsRow
end

