-- ==== Sys2Proof/Tests/Slice0.lean ====
section
/-! SUPPORT. Small tests. Their expected values are those of spec/95_test_vectors.md (each test names its row there) or of the rule
it names; none is the model's own answer. Then, for every statement that has hypotheses, a witness that meets them. -/

namespace Sys2Proof.Tests

open Sys2Proof.Machine Sys2Proof.Safety

/-! ## Helpers -/

/-- A word laid at 0x200, high byte first. -/
def at200 (hi lo : Byte) (s : State) : State := memWrite 0x201 lo (memWrite 0x200 hi s)

/-- The state after one step. -/
def after (s : State) : State :=
  match step s with
  | .next t => t
  | .fault _ => s
  | .refused _ => s

/-- Reset with two registers set. -/
def regs2 (r : Reg) (a : Byte) (q : Reg) (b : Byte) : State := writeV q b (writeV r a .reset)

/-- Reset with bytes laid at an address. -/
def bytesAt (a : Nat) (l : List Byte) : State := memWriteList a l .reset

/-- The other value of both parameters. -/
def otherParams (s : State) : State := { s with params := { shiftSource := .vy, drawVfMode := .newPixel } }

/-- A full stack. -/
def fullStack : State := { State.reset with sp := 16 }

/-! ## Well-formedness. An ill-formed instruction cannot be written: each operand has its field's width. -/

theorem test_wf_widest_operands :
    Instr.wf (.drw 0xF 0xF 0xF) = true ∧ Instr.wf (.jp 0xFFF) = true ∧ Instr.wf (.ldImm 0xF 0xFF) = true := by decide

theorem test_image_of_3585_bytes_is_refused : imageFits (List.replicate 3585 0) = false := by
  rw [imageFits, List.length_replicate]; rfl

theorem test_image_of_3584_bytes_fits : imageFits (List.replicate 3584 0) = true := by
  rw [imageFits, List.length_replicate]; rfl

/-! ## Decoding: for every row a word written out from R50 (and those of L2.1) -/

theorem test_decode_cls : decodeWord 0x00E0 = some .cls := by decide
theorem test_decode_ret : decodeWord 0x00EE = some .ret := by decide
theorem test_decode_jp : decodeWord 0x1ABC = some (.jp 0xABC) := by decide
theorem test_decode_call : decodeWord 0x2400 = some (.call 0x400) := by decide
theorem test_decode_seImm : decodeWord 0x3542 = some (.seImm 5 0x42) := by decide
theorem test_decode_sneImm : decodeWord 0x4543 = some (.sneImm 5 0x43) := by decide
theorem test_decode_seReg : decodeWord 0x5560 = some (.seReg 5 6) := by decide
theorem test_decode_sneReg : decodeWord 0x9560 = some (.sneReg 5 6) := by decide
theorem test_decode_ldImm : decodeWord 0x6A05 = some (.ldImm 0xA 0x05) := by decide
theorem test_decode_addImm : decodeWord 0x7F01 = some (.addImm 0xF 0x01) := by decide
theorem test_decode_ldReg : decodeWord 0x83F0 = some (.ldReg 3 0xF) := by decide
theorem test_decode_or : decodeWord 0x8AB1 = some (.or 0xA 0xB) := by decide
theorem test_decode_and : decodeWord 0x8AB2 = some (.and 0xA 0xB) := by decide
theorem test_decode_xor : decodeWord 0x8AB3 = some (.xor 0xA 0xB) := by decide
theorem test_decode_addReg : decodeWord 0x8124 = some (.addReg 1 2) := by decide
theorem test_decode_sub : decodeWord 0x8F15 = some (.sub 0xF 1) := by decide
theorem test_decode_subn : decodeWord 0x8AB7 = some (.subn 0xA 0xB) := by decide
theorem test_decode_shr : decodeWord 0x8AB6 = some (.shr 0xA 0xB) := by decide
theorem test_decode_shl : decodeWord 0x8ABE = some (.shl 0xA 0xB) := by decide
theorem test_decode_ldI : decodeWord 0xA123 = some (.ldI 0x123) := by decide
theorem test_decode_drw : decodeWord 0xD12F = some (.drw 1 2 15) := by decide
theorem test_decode_skp : decodeWord 0xE29E = some (.skp 2) := by decide
theorem test_decode_sknp : decodeWord 0xE2A1 = some (.sknp 2) := by decide
theorem test_decode_ldVDt : decodeWord 0xF107 = some (.ldVDt 1) := by decide
theorem test_decode_ldDtV : decodeWord 0xF115 = some (.ldDtV 1) := by decide
theorem test_decode_addI : decodeWord 0xF11E = some (.addI 1) := by decide
theorem test_decode_ldF : decodeWord 0xF129 = some (.ldF 1) := by decide
theorem test_decode_ldB : decodeWord 0xF133 = some (.ldB 1) := by decide
theorem test_decode_stRange : decodeWord 0xF255 = some (.stRange 2) := by decide
theorem test_decode_ldRange : decodeWord 0xF165 = some (.ldRange 1) := by decide

/-- The invalid words of L2.1. -/
theorem test_invalid_words :
    [0x00E1, 0x0000, 0x0123, 0x5121, 0x9121, 0x8128, 0x812F, 0xB200, 0xC0FF, 0xE09F, 0xF00A, 0xF018, 0xFFFF].all
      (fun w : Word => decodeWord w == none) = true := by decide

/-- Two bytes are needed, and the high one comes first (R45, R38). -/
theorem test_decode_bytes :
    decode [0x6A, 0x05, 0xEE] = .ok (.ldImm 0xA 0x05, [0xEE]) ∧ decode [0x6A] = .error .truncated ∧
      decode [0xC0, 0xFF] = .error (.invalidOpcode 0xC0FF) := by
  refine ⟨rfl, rfl, rfl⟩

theorem test_decode_table_word : decodeTableWord 16 0x8ABE = some (.shl 0xA 0xB) ∧ decodeTableWord 16 0xB200 = none := by
  decide

/-! ## One step of each instruction -/

/-- L1-3. -/
theorem test_cls :
    let t := after (at200 0x00 0xE0 (setPixel 63 31 true (setPixel 0 0 true .reset)))
    pixel t 0 0 = false ∧ pixel t 63 31 = false ∧ t.pc = 0x202 := by decide

/-- R61, with stack[0] = 300: the popped value plus 2. -/
theorem test_ret :
    let t := after (at200 0x00 0xEE { State.reset with sp := 1, stack := State.reset.stack.set 0 0x300 })
    t.sp = 0 ∧ t.pc = 0x302 := by decide

/-- L2.3: 00EE with an empty stack. -/
theorem test_ret_underflow :
    let t := after (at200 0x00 0xEE .reset)
    t.halt = some ⟨.stackUnderflow, 0x200, some 0x00EE, none⟩ ∧ t.pc = 0x200 := by decide

/-- L2.3: 1201, an odd target. -/
theorem test_jp_odd : (after (at200 0x12 0x01 .reset)).pc = 0x201 := by decide

/-- L2.3: 2400 with one slot left. -/
theorem test_call_last_slot :
    let t := after (at200 0x24 0x00 { State.reset with sp := 15 })
    t.sp = 16 ∧ t.stack[15] = 0x200 ∧ t.pc = 0x400 := by decide

/-- L2.3: 2400 with a full stack. -/
theorem test_call_overflow :
    let t := after (at200 0x24 0x00 fullStack)
    t.halt = some ⟨.stackOverflow, 0x200, some 0x2400, none⟩ ∧ t.sp = 16 ∧ t.pc = 0x200 := by decide

/-- L2.3: 3542 and 3543 with V5 = 42. -/
theorem test_seImm :
    (after (at200 0x35 0x42 (writeV 5 0x42 .reset))).pc = 0x204 ∧
      (after (at200 0x35 0x43 (writeV 5 0x42 .reset))).pc = 0x202 := by decide

/-- L2.3: 4542 and 4543 with V5 = 42. -/
theorem test_sneImm :
    (after (at200 0x45 0x42 (writeV 5 0x42 .reset))).pc = 0x202 ∧
      (after (at200 0x45 0x43 (writeV 5 0x42 .reset))).pc = 0x204 := by decide

/-- L2.3: 5560 with V5 = V6 = 09, and the opposite from R68. -/
theorem test_seReg :
    (after (at200 0x55 0x60 (regs2 5 9 6 9))).pc = 0x204 ∧ (after (at200 0x55 0x60 (regs2 5 9 6 10))).pc = 0x202 := by decide

/-- L2.3: 9560 with V5 = 09, V6 = 0A, and 9550. -/
theorem test_sneReg :
    (after (at200 0x95 0x60 (regs2 5 9 6 10))).pc = 0x204 ∧ (after (at200 0x95 0x50 (regs2 5 9 6 10))).pc = 0x202 := by decide

/-- L1-8. -/
theorem test_ldImm :
    let t := after (at200 0x6A 0x05 .reset)
    readV t 0xA = 0x05 ∧ t.pc = 0x202 := by decide

/-- L2.2: 7001 with V0 = FF, VF = 55. -/
theorem test_addImm_wraps :
    let t := after (at200 0x70 0x01 (regs2 0 0xFF 0xF 0x55))
    readV t 0 = 0x00 ∧ readV t 0xF = 0x55 := by decide

/-- L2.2: 8010 with V1 = 33. -/
theorem test_ldReg : readV (after (at200 0x80 0x10 (writeV 1 0x33 .reset))) 0 = 0x33 := by decide

/-- L2.2: 8011, VF untouched. -/
theorem test_or :
    let t := after (at200 0x80 0x11 (writeV 0xF 0x55 (regs2 0 0x0F 1 0xF0)))
    readV t 0 = 0xFF ∧ readV t 0xF = 0x55 := by decide

/-- L2.2: 8012. -/
theorem test_and : readV (after (at200 0x80 0x12 (regs2 0 0x3C 1 0x0F))) 0 = 0x0C := by decide

/-- L2.2: 8013. -/
theorem test_xor : readV (after (at200 0x80 0x13 (regs2 0 0x3C 1 0x0F))) 0 = 0x33 := by decide

/-- L1-1: 200 + 100, and 200 + 55. -/
theorem test_addReg :
    let t := after (at200 0x80 0x14 (regs2 0 0xC8 1 0x64))
    let u := after (at200 0x80 0x14 (regs2 0 0xC8 1 0x37))
    readV t 0 = 0x2C ∧ readV t 0xF = 1 ∧ readV u 0 = 0xFF ∧ readV u 0xF = 0 := by decide

/-- L2.2: 8F04 (the result is lost) and 80F4 (the old VF is read). -/
theorem test_addReg_vf :
    readV (after (at200 0x8F 0x04 (regs2 0xF 0xF0 0 0x20))) 0xF = 1 ∧
      readV (after (at200 0x80 0xF4 (regs2 0 0x01 0xF 0xFF))) 0 = 0 := by decide

/-- L1-2: 10 − 3, and 3 − 10. -/
theorem test_sub :
    let t := after (at200 0x80 0x15 (regs2 0 0x0A 1 0x03))
    let u := after (at200 0x80 0x15 (regs2 0 0x03 1 0x0A))
    readV t 0 = 0x07 ∧ readV t 0xF = 1 ∧ readV u 0 = 0xF9 ∧ readV u 0xF = 0 := by decide

/-- L2.2: 8015 on equal values: the flag is strict. -/
theorem test_sub_equal : readV (after (at200 0x80 0x15 (regs2 0 5 1 5))) 0xF = 0 := by decide

/-- L2.2: 8017. -/
theorem test_subn :
    let t := after (at200 0x80 0x17 (regs2 0 0x05 1 0x03))
    let u := after (at200 0x80 0x17 (regs2 0 0x03 1 0x05))
    readV t 0 = 0xFE ∧ readV t 0xF = 0 ∧ readV u 0 = 0x02 ∧ readV u 0xF = 1 := by decide

/-- L2.2: 8016 with V0 = 04, V1 = 03, for both values of SHIFT_SOURCE. -/
theorem test_shr :
    let t := after (at200 0x80 0x16 (regs2 0 4 1 3))
    let u := after (otherParams (at200 0x80 0x16 (regs2 0 4 1 3)))
    readV t 0 = 2 ∧ readV t 0xF = 0 ∧ readV u 0 = 1 ∧ readV u 0xF = 1 := by decide

/-- L2.2: 801E with V0 = 01, V1 = 81, for both values of SHIFT_SOURCE. -/
theorem test_shl :
    let t := after (at200 0x80 0x1E (regs2 0 0x01 1 0x81))
    let u := after (otherParams (at200 0x80 0x1E (regs2 0 0x01 1 0x81)))
    readV t 0 = 2 ∧ readV t 0xF = 0 ∧ readV u 0 = 2 ∧ readV u 0xF = 1 := by decide

/-- L2.2: 8FFE with VF = 40: the result 80 is lost. -/
theorem test_shl_vf : readV (after (at200 0x8F 0xFE (writeV 0xF 0x40 .reset))) 0xF = 0 := by decide

/-- L2.5: A123. -/
theorem test_ldI : (after (at200 0xA1 0x23 .reset)).I = 0x123 := by decide

/-- L2.4: D011 at column 60 clips, and 7C wraps to 60 once. -/
theorem test_drw_clips :
    let t := after (at200 0xD0 0x11 (setI 0x300 (writeV 0 0x7C (bytesAt 0x300 [0xFF]))))
    pixel t 59 0 = false ∧ pixel t 60 0 = true ∧ pixel t 63 0 = true ∧ pixel t 0 0 = false ∧ readV t 0xF = 1 := by decide

/-- L2.4: C0 over a lit fb[1][0], for both values of DRAW_VF_MODE. -/
theorem test_drw_flag :
    let s := at200 0xD0 0x11 (setI 0x300 (setPixel 1 0 true (bytesAt 0x300 [0xC0])))
    pixel (after s) 0 0 = true ∧ pixel (after s) 1 0 = false ∧ readV (after s) 0xF = 1 ∧
      readV (after (otherParams s)) 0xF = 0 := by decide

/-- L2.6: E09E with V0 = 1A and K = {A}, and with K empty. -/
theorem test_skp :
    (after (supplyKeys (keySetOf [0xA]) (at200 0xE0 0x9E (writeV 0 0x1A .reset)))).pc = 0x204 ∧
      (after (at200 0xE0 0x9E (writeV 0 0x0A .reset))).pc = 0x202 := by decide

/-- L2.6: E0A1 with V0 = 0A and K empty, and with K = {A}. -/
theorem test_sknp :
    (after (at200 0xE0 0xA1 (writeV 0 0x0A .reset))).pc = 0x204 ∧
      (after (supplyKeys (keySetOf [0xA]) (at200 0xE0 0xA1 (writeV 0 0x0A .reset)))).pc = 0x202 := by decide

/-- L2.6: F007 with dt = 20 at the start of the cycle. -/
theorem test_ldVDt :
    let t := after (at200 0xF0 0x07 (setDt 0x20 .reset))
    t.dt = 0x1F ∧ readV t 0 = 0x1F := by decide

/-- L2.6: F015 with V0 = 05. -/
theorem test_ldDtV : (after (at200 0xF0 0x15 (writeV 0 5 .reset))).dt = 5 := by decide

/-- L2.5: F01E with I = FFFF, V0 = 02, and with I = 0FFF, V0 = 01. -/
theorem test_addI :
    (after (at200 0xF0 0x1E (setI 0xFFFF (writeV 0 2 .reset)))).I = 0x0001 ∧
      (after (at200 0xF0 0x1E (setI 0x0FFF (writeV 0 1 .reset)))).I = 0x1000 := by decide

/-- L2.5: F029 with V0 = 0F and V0 = FF. -/
theorem test_ldF :
    (after (at200 0xF0 0x29 (writeV 0 0x0F .reset))).I = 0x09B ∧ (after (at200 0xF0 0x29 (writeV 0 0xFF .reset))).I = 0x54B := by
  decide

/-- L2.5: F033 with I = FFD, V0 = 7B (123). -/
theorem test_ldB :
    let t := after (at200 0xF0 0x33 (setI 0xFFD (writeV 0 0x7B .reset)))
    memRead t 0xFFD = 1 ∧ memRead t 0xFFE = 2 ∧ memRead t 0xFFF = 3 := by decide

/-- L2.5: F033 with I = FFE: a fault, and nothing is written. -/
theorem test_ldB_out_of_range :
    let t := after (at200 0xF0 0x33 (setI 0xFFE (writeV 0 0x7B .reset)))
    t.halt = some ⟨.memoryOutOfRange, 0x200, some 0xF033, some 0x1000⟩ ∧ memRead t 0xFFE = 0 ∧ t.pc = 0x200 := by decide

/-- L2.5: F255 with V0..V2 = 0A 0B 0C at I = 300. -/
theorem test_stRange :
    let t := after (at200 0xF2 0x55 (setI 0x300 (writeV 0 0x0A (regs2 1 0x0B 2 0x0C))))
    memRead t 0x300 = 0x0A ∧ memRead t 0x302 = 0x0C ∧ memRead t 0x303 = 0 ∧ t.I = 0x300 := by decide

/-- L2.5: F165 with AA BB at I = 300, V2 = CC. -/
theorem test_ldRange :
    let t := after (at200 0xF1 0x65 (setI 0x300 (writeV 2 0xCC (bytesAt 0x300 [0xAA, 0xBB]))))
    readV t 0 = 0xAA ∧ readV t 1 = 0xBB ∧ readV t 2 = 0xCC ∧ t.I = 0x300 := by decide

/-! ## Cycles, faults, construction -/

/-- L2.6: C0FF with dt = 03; the timer still ticks. -/
theorem test_invalid_opcode :
    let t := after (at200 0xC0 0xFF (setDt 3 .reset))
    t.dt = 2 ∧ t.halt = some ⟨.invalidOpcode, 0x200, some 0xC0FF, none⟩ ∧ t.pc = 0x200 := by decide

/-- L2.3: the fetch at FFF. -/
theorem test_fetch_fault :
    (after (setPc 0xFFF .reset)).halt = some ⟨.memoryOutOfRange, 0xFFF, none, some 0x1000⟩ := by decide

/-- L2.6: any word on a halted machine. -/
theorem test_halted : step (after (at200 0xC0 0xFF (setDt 3 .reset))) = .next (after (at200 0xC0 0xFF (setDt 3 .reset))) := rfl

/-- R117: the image's first and last byte, the byte after it, the font. -/
theorem test_construct :
    (construct Config.Params.default [0x22, 0x00]).map
      (fun s => [memRead s 0x200, memRead s 0x201, memRead s 0x202, memRead s 0x050]) = some [0x22, 0x00, 0x00, 0xF0] := by decide

/-- R112. -/
theorem test_keySymbol :
    keySymbol '0' = some 0x0 ∧ keySymbol '9' = some 0x9 ∧ keySymbol 'A' = some 0xA ∧ keySymbol 'F' = some 0xF ∧
      keySymbol 'G' = none := by decide

/-- R111, R113: what the host reads after C0FF. -/
theorem test_hostView :
    let v := hostView (after (at200 0xC0 0xFF (setDt 3 .reset)))
    v.delay = 2 ∧ v.sound = 0 ∧ v.outcome = .faulted ⟨.invalidOpcode, 0x200, some 0xC0FF, none⟩ := by decide

/-- Writing what an unlisted address reads as removes the entry: equal memories are equal lists. -/
theorem test_memory_is_canonical :
    Memory.write (Memory.write [] 0x50 0x00) 0x50 0xF0 = [] ∧
      Memory.write (Memory.write [] 7 1) 5 2 = [(5, 2), (7, 1)] := by decide

/-! ## Witnesses: each names the statement whose hypotheses it meets -/

theorem witness_DecodeOfEncodeIsIdentity : Instr.WellFormed (.drw 0xF 0 0xF) := by decide

theorem witness_EncodeOfDecodeIsIdentity : decodeWord 0x8ABE = some (.shl 0xA 0xB) := by decide

theorem witness_DecodingFollowsTheOpcodeMap : (⟨19, 0x800E#16, 0xF00F#16⟩ : OpcodeRow) ∈ opcodeRows := by decide

theorem witness_NoTwoRowsMatchOneWord :
    let r : OpcodeRow := ⟨19, 0x800E#16, 0xF00F#16⟩
    r ∈ opcodeRows ∧ r.matchesWord 0x8ABE := by decide

theorem witness_FetchReadsTheBigEndianWord :
    (setPc 0xFFE .reset).pc.toNat ≤ 0xFFE ∧ 0xFFE < (setPc 0xFFF .reset).pc.toNat := by decide

theorem witness_StepRunsTheDecodedInstruction :
    let s := at200 0x6A 0x05 .reset
    Running s ∧ s.pc.toNat ≤ 0xFFE ∧ decode [memRead s s.pc.toNat, memRead s (s.pc.toNat + 1)] = .ok (.ldImm 0xA 5, []) :=
  ⟨rfl, by decide, rfl⟩

theorem witness_PlacedWordIsTheNextInstruction : 0xFFFF < 65536 := by decide

theorem witness_CycleIsAStepWithTheSuppliedKeys : Running State.reset := rfl

theorem witness_HaltedMachineIsFrozen :
    (after (at200 0xC0 0xFF .reset)).halt = some ⟨.invalidOpcode, 0x200, some 0xC0FF, none⟩ := by decide

theorem witness_InvalidOpcodeHalts :
    let s := at200 0xC0 0xFF .reset
    Running s ∧ fetch s = .ok 0xC0FF ∧ decodeWord 0xC0FF = none := ⟨rfl, rfl, rfl⟩

theorem witness_FetchOutsideMemoryHalts :
    Running (setPc 0xFFF .reset) ∧ 0xFFE < (setPc 0xFFF .reset).pc.toNat := by decide

theorem witness_StackFaultsWriteNothing : fullStack.sp.val = 16 ∧ State.reset.sp.val = 0 := by decide

theorem witness_AccessesOutsideMemoryWriteNothing :
    ((1 : Nibble) ≠ 0 ∧ 0xFFF < (setI 0x1000 .reset).I.toNat + (1 : Nibble).toNat - 1) ∧
      0xFFF < (setI 0xFFE .reset).I.toNat + 2 ∧ 0xFFF < (setI 0xFFF .reset).I.toNat + (1 : Reg).toNat := by decide

theorem witness_FaultsAreThoseListed_fetch :
    let s := setPc 0xFFF State.reset
    Running s ∧ step s = .next (after s) ∧ (after s).halt = some ⟨.memoryOutOfRange, 0xFFF, none, some 0x1000⟩ :=
  ⟨rfl, rfl, by decide⟩

theorem witness_FaultsAreThoseListed_invalid :
    let s := at200 0xC0 0xFF .reset
    Running s ∧ step s = .next (after s) ∧ (after s).halt = some ⟨.invalidOpcode, 0x200, some 0xC0FF, none⟩ :=
  ⟨rfl, rfl, by decide⟩

theorem witness_FaultsAreThoseListed_call :
    let s := at200 0x24 0x00 fullStack
    Running s ∧ step s = .next (after s) ∧ (after s).halt = some ⟨.stackOverflow, 0x200, some 0x2400, none⟩ :=
  ⟨rfl, rfl, by decide⟩

theorem witness_FaultsAreThoseListed_ret :
    let s := at200 0x00 0xEE .reset
    Running s ∧ step s = .next (after s) ∧ (after s).halt = some ⟨.stackUnderflow, 0x200, some 0x00EE, none⟩ :=
  ⟨rfl, rfl, by decide⟩

/-- Also L2.4: D012 with I = FFF. -/
theorem witness_FaultsAreThoseListed_access :
    let s := at200 0xD0 0x12 (setI 0xFFF .reset)
    Running s ∧ step s = .next (after s) ∧ (after s).halt = some ⟨.memoryOutOfRange, 0x200, some 0xD012, some 0x1000⟩ :=
  ⟨rfl, rfl, by decide⟩

theorem witness_FaultsArePrecise :
    let s := at200 0xF0 0x33 (setI 0xFFE .reset)
    Running s ∧ step s = .next (after s) ∧ (after s).halt ≠ none := ⟨rfl, rfl, by decide⟩

theorem witness_TimersTickEveryCycle :
    let s := at200 0xF0 0x07 (setDt 1 .reset)
    let r := at200 0xF0 0x15 (setDt 1 .reset)
    Running s ∧ step s = .next (after s) ∧ nextInstr s = some (.ldVDt 0) ∧
      Running r ∧ step r = .next (after r) ∧ nextInstr r = some (.ldDtV 0) := ⟨rfl, rfl, by decide, rfl, rfl, by decide⟩

theorem witness_PcFollowsTheTable : Running State.reset := rfl

theorem witness_OnlyFlagWritersChangeVf :
    exec (.or 0 1) (regs2 0 1 0xF 7) = .next (advance (writeV 0 1 (regs2 0 1 0xF 7))) ∧ ¬ FlagWriter (.or 0 1) ∧
      ¬ Destination (.or 0 1) flagReg := ⟨rfl, fun h => h, by unfold Destination; decide⟩

theorem witness_OnlyListedRegistersAreWritten :
    exec (.ldReg 0 1) State.reset = .next (advance (writeV 0 0 .reset)) ∧ ¬ Writes (.ldReg 0 1) 1 :=
  ⟨rfl, by simp [Writes]⟩

/-- For the register a shift does not read, under each value of SHIFT_SOURCE. -/
theorem witness_UnreadRegistersDoNotMatter :
    ¬ Reads State.reset.params.shiftSource (.shr 0 1) 1 ∧ ¬ Reads (otherParams .reset).params.shiftSource (.shr 0 1) 0 ∧
      exec (.shr 0 1) State.reset = .next (advance (writeResultFlag 0 0 0 .reset)) :=
  ⟨by simp [Reads, State.reset, Config.Params.default], by simp [Reads, otherParams], rfl⟩

theorem witness_IndexRegisterUsers :
    ((∀ x, Instr.cls ≠ .addI x) ∧ (∀ nnn, Instr.cls ≠ .ldI nnn) ∧ (∀ x, Instr.cls ≠ .ldF x) ∧
        (∀ x y n, Instr.cls ≠ .drw x y n) ∧ (∀ x, Instr.cls ≠ .ldB x) ∧ (∀ x, Instr.cls ≠ .stRange x) ∧
        ∀ x, Instr.cls ≠ .ldRange x) ∧
      exec (.stRange 0) State.reset = .next (advance (storeRegs 1 .reset)) :=
  ⟨⟨nofun, nofun, nofun, nofun, nofun, nofun, nofun⟩, rfl⟩

theorem witness_StackAndScreenUsers :
    ((∀ nnn, Instr.cls ≠ .call nnn) ∧ Instr.cls ≠ .ret) ∧ Instr.ret ≠ .cls ∧ ∀ x y n, Instr.ret ≠ .drw x y n :=
  ⟨⟨nofun, nofun⟩, nofun, nofun⟩

theorem witness_TimerUsers :
    ((∀ x, Instr.cls ≠ .ldVDt x) ∧ ∀ x, Instr.cls ≠ .ldDtV x) ∧
      exec (.ldVDt 3) (setDt 9 .reset) = .next (advance (writeV 3 9 (setDt 9 .reset))) :=
  ⟨⟨nofun, nofun⟩, rfl⟩

theorem witness_KeysCountInOneCycleAlone :
    let s := at200 0x6A 0x05 .reset
    Running s ∧ (∀ x, nextInstr s ≠ some (.skp x)) ∧ (∀ x, nextInstr s ≠ some (.sknp x)) ∧
      cycle (keySetOf [5]) s = .next (after s) :=
  ⟨rfl, nofun, nofun, rfl⟩

theorem witness_MemoryUsers :
    ((∀ x y n, Instr.cls ≠ .drw x y n) ∧ (∀ x, Instr.cls ≠ .ldB x) ∧ (∀ x, Instr.cls ≠ .stRange x) ∧
        ∀ x, Instr.cls ≠ .ldRange x) ∧
      exec .cls State.reset = .next (advance (clearScreen .reset)) :=
  ⟨⟨nofun, nofun, nofun, nofun⟩, rfl⟩

theorem witness_ParametersNeverChange :
    step (otherParams (at200 0x80 0x16 .reset)) = .next (after (otherParams (at200 0x80 0x16 .reset))) := rfl

/-- The last clause: the target whose fetch faults exists as an operand. -/
theorem witness_JumpSetsThePc : decodeWord 0x1FFF = some (.jp 0xFFF) := by decide

theorem witness_CallPushesItsOwnAddress : ({ State.reset with sp := 15 } : State).sp.val < 16 := by decide

theorem witness_ReturnPops : 0 < ({ State.reset with sp := 1 } : State).sp.val ∧ 0 < fullStack.sp.val := by decide

/-- L1-5: 2300 at 200, 00EE at 300. -/
theorem witness_CallThenReturnComesBack :
    let s := memWrite 0x301 0xEE (at200 0x23 0x00 .reset)
    Running s ∧ s.sp.val < 16 ∧ s.pc.toNat ≤ 0xFFE ∧ nextInstr s = some (.call 0x300) ∧ (0x300 : Addr12).toNat ≤ 0xFFE ∧
      memRead s (0x300 : Addr12).toNat = 0x00 ∧ memRead s ((0x300 : Addr12).toNat + 1) = 0xEE := by decide +kernel

/-- The last clause, at both ends of its range. -/
theorem witness_SkipsOnAnImmediate :
    let s := setPc 0xFFC State.reset
    let t := setPc 0xFFE State.reset
    0xFFC ≤ s.pc.toNat ∧ t.pc.toNat ≤ 0xFFE ∧ readV s 0 = 0 ∧ readV t 0 ≠ 1 := by decide

theorem witness_SkipsOnRegisters : (0xF : Nibble) ≠ 0 := by decide

theorem witness_SkipsOnKeys : State.reset.keys = noKeys := rfl

theorem witness_ShiftsMoveOneBitIntoVf :
    let s := regs2 0 4 1 3
    (s.params.shiftSource = .vx ∧ 4 = (readV s 0).toNat) ∧
      ((otherParams s).params.shiftSource = .vy ∧ 3 = (readV (otherParams s) 1).toNat) := by decide

theorem witness_BcdStoresThreeDigits : (setI 0xFFD .reset).I.toNat + 2 ≤ 0xFFF := by decide

theorem witness_RegisterRangeIsStored :
    (setI 0xFF0 .reset).I.toNat + (0xF : Reg).toNat ≤ 0xFFF ∧ (setI 0xFFF .reset).I.toNat + (0 : Reg).toNat ≤ 0xFFF := by decide

theorem witness_RegisterRangeIsLoaded :
    (setI 0xFF0 .reset).I.toNat + (0xF : Reg).toNat ≤ 0xFFF ∧ (setI 0xFFF .reset).I.toNat + (0 : Reg).toNat ≤ 0xFFF := by decide

theorem witness_StoredBytesAreFetched :
    let s := setI 0xFFE (regs2 0 0x12 1 0x34)
    s.I.toNat + (1 : Reg).toNat ≤ 0xFFF ∧ (0 : Reg).toNat < (1 : Reg).toNat ∧
      exec (.stRange 1) s = .next (advance (storeRegs 2 s)) := ⟨by decide, by decide, rfl⟩

theorem witness_DelayTimerTransfers :
    Running (at200 0xF0 0x07 .reset) ∧ nextInstr (at200 0xF0 0x07 .reset) = some (.ldVDt 0) ∧
      Running (at200 0xF0 0x15 .reset) ∧ nextInstr (at200 0xF0 0x15 .reset) = some (.ldDtV 0) := by decide

/-- L2.6: F015 then F107. -/
theorem witness_DelayWrittenThenReadIsOneLess :
    let s := memWrite 0x203 0x07 (memWrite 0x202 0xF1 (at200 0xF0 0x15 (writeV 0 5 .reset)))
    Running s ∧ nextInstr s = some (.ldDtV 0) ∧ step s = .next (after s) ∧ nextInstr (after s) = some (.ldVDt 1) :=
  ⟨rfl, by decide, rfl, by decide⟩

/-- No row at all, and the last byte of memory (L2.4: D011 with I = FFF). -/
theorem witness_DrawTogglesTheSprite :
    ((0 : Nibble) = 0 ∨ (setI 0xFFFF .reset).I.toNat + (0 : Nibble).toNat - 1 ≤ 0xFFF) ∧
      ((1 : Nibble) = 0 ∨ (setI 0xFFF .reset).I.toNat + (1 : Nibble).toNat - 1 ≤ 0xFFF) := by decide

/-- L2.4: C0 at the origin: its last toggled pixel is (1, 0); with no set bit there is none. -/
theorem witness_DrawFlagIsTheLastToggledPixel :
    let s := setI 0x300 (bytesAt 0x300 [0xC0])
    ((1 : Nibble) = 0 ∨ s.I.toNat + (1 : Nibble).toNat - 1 ≤ 0xFFF) ∧ Covers s 0 1 1 1 0 ∧
      (∀ qx qy, Covers s 0 1 1 qx qy → DrawnNoLaterThan qx qy 1 0) ∧
      ∀ px py, ¬ Covers (setI 0x300 .reset) 0 1 1 px py := by
  unfold Covers DrawnNoLaterThan
  decide +kernel

theorem witness_DrawingTwiceRestoresTheScreen :
    let s := setI 0x300 (bytesAt 0x300 [0xC0])
    let t := after (at200 0xD0 0x11 s)
    ((1 : Nibble) = 0 ∨ (at200 0xD0 0x11 s).I.toNat + (1 : Nibble).toNat - 1 ≤ 0xFFF) ∧
      exec (.drw 0 1 1) (at200 0xD0 0x11 s) = .next t ∧
      (readV t 0).toNat % 64 = (readV (at200 0xD0 0x11 s) 0).toNat % 64 ∧
      (readV t 1).toNat % 32 = (readV (at200 0xD0 0x11 s) 1).toNat % 32 :=
  ⟨by decide, rfl, by decide, by decide⟩

theorem witness_ConstructionLoadsTheImage :
    (List.replicate 3584 (0 : Byte)).length ≤ 3584 ∧ 3584 < (List.replicate 3585 (0 : Byte)).length := by
  rw [List.length_replicate, List.length_replicate]; decide

/-- The invariant holds in a state of a run: one call deep, a byte stored. -/
theorem witness_StepKeepsTheInvariant :
    let s : State := memWrite 0x300 7 { State.reset with sp := 1, stack := State.reset.stack.set 0 0x200, pc := 0x1002 }
    Inv s ∧ step s = .next (after s) := by
  refine ⟨⟨by decide, by decide, by decide, rfl, nofun⟩, rfl⟩

theorem witness_EveryProgramRunsInsideTheInvariant : ([0x22, 0x00] : List Byte).length ≤ 3584 := by decide

end Sys2Proof.Tests
end

/-! # What a step can do, and that it leaves the parameters alone (00_scope.md R9) -/

namespace Sys2Proof.Proofs

open Sys2Proof.Machine

/-! ## The cycle: one lemma per driver function, saying everything it can answer (R56) -/

theorem step_of_halted {s : State} (h : s.halt.isSome = true) : step s = .next s := if_pos h

/-- The key set of a step is the one that stands in the state, so that its supply changes nothing (log 4). -/
theorem step_of_running {s : State} (h : s.halt = none) : step s = finishCycle (fetchAndRun (timerTick s)) :=
  if_neg (by simp [h])

theorem finishCycle_eq_next {r : Result} {t : State} (h : finishCycle r = .next t) :
    ∃ u, r = .next u ∧ t = endCycle u := by
  cases r with
  | next u => exact ⟨u, rfl, (Host.Outcome.next.inj h).symm⟩
  | fault | refused => cases h

/-- A step of a halted machine changes nothing (R102); any other is a timer tick, a fetch and what the word does, and the end of
the cycle. -/
theorem step_eq_next {s t : State} (h : step s = .next t) :
    (s.halt.isSome = true ∧ t = s) ∨
      (s.halt = none ∧ ∃ u, fetchAndRun (timerTick s) = .next u ∧ t = endCycle u) := by
  cases hs : s.halt with
  | none => exact .inr ⟨rfl, finishCycle_eq_next (step_of_running hs ▸ h)⟩
  | some r =>
    rw [step_of_halted (by simp [hs])] at h
    exact .inl ⟨rfl, (Host.Outcome.next.inj h).symm⟩

/-- The fetch faults (R40), or the word is invalid (R96), or its instruction is executed. -/
theorem fetchAndRun_eq_next {s t : State} (h : fetchAndRun s = .next t) :
    (∃ a, fetch s = .error a ∧ t = raiseFault .memoryOutOfRange none (some a) s) ∨
      (∃ w, fetch s = .ok w ∧ decodeWord w = none ∧ t = raiseFault .invalidOpcode (some w) none s) ∨
      ∃ w i, fetch s = .ok w ∧ decodeWord w = some i ∧ exec i s = .next t := by
  unfold fetchAndRun runWord at h
  split at h
  · rename_i w hf
    split at h
    · rename_i i hd
      exact .inr (.inr ⟨w, i, hf, hd, h⟩)
    · rename_i hd
      exact .inr (.inl ⟨w, hf, hd, (Host.Outcome.next.inj h).symm⟩)
  · rename_i a hf
    exact .inl ⟨a, hf, (Host.Outcome.next.inj h).symm⟩

/-! ## The parameters -/

/-- What the effect of an access keeps and a fault keeps, the access keeps. -/
theorem withRange_keeps {α : Sort _} (g : State → α) (i : Instr) (lo hi : Nat) (f : State → State) (s : State)
    (hf : g (f s) = g s) (hr : ∀ k a, g (raiseIn i k a s) = g s) : g (withRange i lo hi f s) = g s := by
  unfold withRange
  split
  · exact hr _ _
  · exact hf

theorem pop?_params {s s1 : State} {v : Word} (h : pop? s = some (v, s1)) : s1.params = s.params := by
  rw [pop?_eq] at h
  split at h
  · cases h; rfl
  · cases h

theorem push?_params {s s1 : State} {v : Word} (h : push? v s = some s1) : s1.params = s.params := by
  rw [push?_eq] at h
  split at h
  · cases h; rfl
  · cases h

/-- No meaning writes the parameters, in the effect or in the fault. -/
theorem exec_params {i : Instr} {s t : State} (h : exec i s = .next t) : t.params = s.params := by
  cases i with
  | ret =>
    simp only [exec, execRet] at h
    split at h <;> cases h
    · rename_i hp
      exact (setPc_params ..).trans (pop?_params hp)
    · rfl
  | call nnn =>
    simp only [exec, execCall] at h
    split at h <;> cases h
    · rename_i hp
      exact (setPc_params ..).trans (push?_params hp)
    · rfl
  | drw x y n =>
    simp only [exec, execDrw] at h
    split at h <;> cases h
    · simp
    · exact withRange_keeps (·.params) _ _ _ _ s (by simp) (by simp)
  | ldB x | stRange x | ldRange x =>
    cases h
    exact withRange_keeps (·.params) _ _ _ _ s (by simp) (by simp)
  | _ =>
    cases h
    simp

/-- Settles O29: a step is a timer tick, a fault or a meaning, and the end of the cycle, and none of them writes the parameters. -/
theorem parametersNeverChange : Obligations.ParametersNeverChange := by
  intro s t h
  obtain ⟨-, rfl⟩ | ⟨-, u, hrun, rfl⟩ := step_eq_next h
  · rfl
  have hu : u.params = (timerTick s).params := by
    obtain ⟨a, -, rfl⟩ | ⟨w, -, -, rfl⟩ | ⟨w, i, -, -, hexec⟩ := fetchAndRun_eq_next hrun
    · rfl
    · rfl
    · exact exec_params hexec
  simpa using hu

end Sys2Proof.Proofs

/-! # What the instructions leave alone, and the invariant (10_state.md) -/

namespace Sys2Proof.Proofs

open Sys2Proof.Machine Sys2Proof.Safety

/-! ## Overlaying parts of one state on another -/

/-- The state `s`, its parts named in `ps` taken from `u`. A change of a part is an overlay, so one theorem about overlays
(`exec_overlay`) says of every part which instructions neither read nor write it. -/
def overlay (ps : List Part) (u s : State) : State where
  mem := if .mem ∈ ps then u.mem else s.mem
  V := if .V ∈ ps then u.V else s.V
  I := if .I ∈ ps then u.I else s.I
  pc := if .pc ∈ ps then u.pc else s.pc
  stack := if .stack ∈ ps then u.stack else s.stack
  sp := if .sp ∈ ps then u.sp else s.sp
  fb := if .fb ∈ ps then u.fb else s.fb
  dt := if .dt ∈ ps then u.dt else s.dt
  st := if .st ∈ ps then u.st else s.st
  keys := if .keys ∈ ps then u.keys else s.keys
  halt := if .halt ∈ ps then u.halt else s.halt
  params := if .params ∈ ps then u.params else s.params

@[simp] theorem overlay_self (ps : List Part) (s : State) : overlay ps s s = s := by simp [overlay]

section
variable {ps : List Part} (u s : State)

/-! An operation on a part that is not overlaid does the same below the overlay. -/

@[simp] theorem overlay_I (h : .I ∉ ps) : (overlay ps u s).I = s.I := if_neg h
@[simp] theorem baseI_overlay (h : .I ∉ ps) : baseI (overlay ps u s) = baseI s :=
  congrArg BitVec.toNat (overlay_I u s h)
@[simp] theorem overlay_pc (h : .pc ∉ ps) : (overlay ps u s).pc = s.pc := if_neg h
@[simp] theorem overlay_dt (h : .dt ∉ ps) : (overlay ps u s).dt = s.dt := if_neg h
@[simp] theorem overlay_params (h : .params ∉ ps) : (overlay ps u s).params = s.params := if_neg h

@[simp] theorem readV_overlay (h : .V ∉ ps) (r : Reg) : readV (overlay ps u s) r = readV s r := by
  simp [readV, overlay, h]
@[simp] theorem memRead_overlay (h : .mem ∉ ps) (a : Nat) : memRead (overlay ps u s) a = memRead s a := by
  simp [memRead, overlay, h]
@[simp] theorem pixel_overlay (h : .fb ∉ ps) (px : Fin 64) (py : Fin 32) :
    pixel (overlay ps u s) px py = pixel s px py := by
  simp [pixel, overlay, h]
@[simp] theorem keyPressed_overlay (h : .keys ∉ ps) (k : Nibble) :
    keyPressed (overlay ps u s) k = keyPressed s k := by
  simp [keyPressed, overlay, h]
@[simp] theorem shiftOperand_overlay (hV : .V ∉ ps) (hp : .params ∉ ps) (x y : Reg) :
    shiftOperand (overlay ps u s) x y = shiftOperand s x y := by
  simp [shiftOperand, hV, hp]

@[simp] theorem setPc_overlay (h : .pc ∉ ps) (a : Word) : setPc a (overlay ps u s) = overlay ps u (setPc a s) := by
  simp [overlay, setPc, h]
@[simp] theorem advance_overlay (h : .pc ∉ ps) : advance (overlay ps u s) = overlay ps u (advance s) := by
  simp [advance, h]
@[simp] theorem skipIf_overlay (h : .pc ∉ ps) (c : Bool) : skipIf c (overlay ps u s) = overlay ps u (skipIf c s) := by
  cases c <;> simp [skipIf, h]
@[simp] theorem writeV_overlay (h : .V ∉ ps) (r : Reg) (v : Byte) :
    writeV r v (overlay ps u s) = overlay ps u (writeV r v s) := by
  simp [overlay, writeV, h]
@[simp] theorem writeResultFlag_overlay (h : .V ∉ ps) (x : Reg) (a f : Byte) :
    writeResultFlag x a f (overlay ps u s) = overlay ps u (writeResultFlag x a f s) := by
  simp [writeResultFlag, h]
@[simp] theorem setI_overlay (h : .I ∉ ps) (a : Word) : setI a (overlay ps u s) = overlay ps u (setI a s) := by
  simp [overlay, setI, h]
@[simp] theorem setDt_overlay (h : .dt ∉ ps) (v : Byte) : setDt v (overlay ps u s) = overlay ps u (setDt v s) := by
  simp [overlay, setDt, h]
@[simp] theorem memWrite_overlay (h : .mem ∉ ps) (a : Nat) (v : Byte) :
    memWrite a v (overlay ps u s) = overlay ps u (memWrite a v s) := by
  simp [overlay, memWrite, h]
@[simp] theorem setPixel_overlay (h : .fb ∉ ps) (px : Fin 64) (py : Fin 32) (b : Bool) :
    setPixel px py b (overlay ps u s) = overlay ps u (setPixel px py b s) := by
  simp [overlay, setPixel, h]
@[simp] theorem clearScreen_overlay (h : .fb ∉ ps) : clearScreen (overlay ps u s) = overlay ps u (clearScreen s) := by
  simp [overlay, clearScreen, h]
@[simp] theorem raiseIn_overlay (hpc : .pc ∉ ps) (h : .halt ∉ ps) (i : Instr) (k : FaultKind) (a : Option Nat) :
    raiseIn i k a (overlay ps u s) = overlay ps u (raiseIn i k a s) := by
  simp [overlay, raiseIn, raiseFault, hpc, h]

theorem push?_overlay (hk : .stack ∉ ps) (hp : .sp ∉ ps) (v : Word) :
    push? v (overlay ps u s) = (push? v s).map (overlay ps u) := by
  by_cases h : s.sp.val < 16 <;> simp [push?_eq, overlay, hk, hp, h]

theorem pop?_overlay (hk : .stack ∉ ps) (hp : .sp ∉ ps) :
    pop? (overlay ps u s) = (pop? s).map fun p => (p.1, overlay ps u p.2) := by
  by_cases h : 0 < s.sp.val <;> simp [pop?_eq, overlay, hk, hp, h]

@[simp] theorem memWriteList_overlay (h : .mem ∉ ps) (l : List Byte) (a : Nat) :
    memWriteList a l (overlay ps u s) = overlay ps u (memWriteList a l s) := by
  induction l generalizing a s with
  | nil => rfl
  | cons v rest ih => simp [memWriteList, h, ih]

@[simp] theorem storeRegs_overlay (hm : .mem ∉ ps) (hV : .V ∉ ps) (hI : .I ∉ ps) (n : Nat) :
    storeRegs n (overlay ps u s) = overlay ps u (storeRegs n s) :=
  forRange_comm _ _ (fun k s => by simp [storeReg, hm, hV, hI]) n s

@[simp] theorem loadRegs_overlay (hm : .mem ∉ ps) (hV : .V ∉ ps) (hI : .I ∉ ps) (n : Nat) :
    loadRegs n (overlay ps u s) = overlay ps u (loadRegs n s) :=
  forRange_comm _ _ (fun k s => by simp [loadReg, hm, hV, hI]) n s

theorem drawPixel_overlay (hV : .V ∉ ps) (hf : .fb ∉ ps) (hp : .params ∉ ps) (x0 y0 r : Nat) (b : Byte) (c : Nat) :
    drawPixel x0 y0 r b c (overlay ps u s) = overlay ps u (drawPixel x0 y0 r b c s) := by
  unfold drawPixel
  split
  · split
    · simp [hV, hf, hp]
    · rfl
  · rfl

@[simp] theorem drawSprite_overlay (hm : .mem ∉ ps) (hV : .V ∉ ps) (hI : .I ∉ ps) (hf : .fb ∉ ps) (hp : .params ∉ ps)
    (x0 y0 n : Nat) : drawSprite x0 y0 n (overlay ps u s) = overlay ps u (drawSprite x0 y0 n s) := by
  refine forRange_comm _ _ (fun r s => ?_) n s
  simp only [drawRow, memRead_overlay u s hm, baseI_overlay u s hI]
  exact forRange_comm _ _ (fun c s => drawPixel_overlay u s hV hf hp ..) 8 s

end

/-! ## The parts an instruction reads or writes -/

/-- The parts of the state that an instruction reads or writes, in its effect or in its fault (10_state.md R19, R20, R22, R24,
R26 to R28; R9 for the parameters; 20_memory.md R36). -/
def footprint : Instr → List Part
  | .cls => [.fb, .pc]
  | .ret | .call _ => [.stack, .sp, .pc, .halt]
  | .jp _ => [.pc]
  | .seImm _ _ | .sneImm _ _ | .seReg _ _ | .sneReg _ _ => [.V, .pc]
  | .ldImm _ _ | .addImm _ _ | .ldReg _ _ | .or _ _ | .and _ _ | .xor _ _ => [.V, .pc]
  | .addReg _ _ | .sub _ _ | .subn _ _ => [.V, .pc]
  | .shr _ _ | .shl _ _ => [.V, .pc, .params]
  | .ldI _ => [.I, .pc]
  | .drw _ _ _ => [.mem, .V, .I, .pc, .fb, .halt, .params]
  | .skp _ | .sknp _ => [.V, .pc, .keys]
  | .ldVDt _ | .ldDtV _ => [.V, .pc, .dt]
  | .addI _ | .ldF _ => [.V, .I, .pc]
  | .ldB _ | .stRange _ | .ldRange _ => [.mem, .V, .I, .pc, .halt]

/-- An instruction commutes with a change of parts outside its footprint: it neither reads nor writes them. -/
theorem exec_overlay {i : Instr} {ps : List Part} (h : (footprint i).Disjoint ps) (u s : State) :
    exec i (overlay ps u s) = mapNext (overlay ps u) (exec i s) := by
  cases i with simp only [footprint, List.disjoint_cons_left] at h
  | ret =>
    obtain ⟨hk, hsp, hpc, hh, -⟩ := h
    simp only [exec, execRet, pop?_overlay u s hk hsp]
    cases pop? s <;> simp [mapNext, hpc, hh]
  | call nnn =>
    obtain ⟨hk, hsp, hpc, hh, -⟩ := h
    simp only [exec, execCall, overlay_pc u s hpc, push?_overlay u s hk hsp]
    cases push? s.pc s <;> simp [mapNext, hpc, hh]
  | drw x y n =>
    obtain ⟨hm, hV, hI, hpc, hf, hh, hp, -⟩ := h
    simp only [exec, execDrw, baseI_overlay u s hI]
    split
    · simp [mapNext, *]
    · exact congrArg _ (withRange_comm _ _ _ _ _ _ (by simp [*]) (by simp [hpc, hh]))
  | ldB | stRange | ldRange =>
    obtain ⟨hm, hV, hI, hpc, hh, -⟩ := h
    simp only [exec, execLdB, execStRange, execLdRange, baseI_overlay u s hI]
    exact congrArg _ (withRange_comm _ _ _ _ _ _ (by simp [*]) (by simp [hpc, hh]))
  | _ =>
    simp [exec, execCls, execJp, execSeImm, execSneImm, execSeReg, execSneReg, execLdImm, execAddImm, execLdReg, execOr, execAnd,
      execXor, execAddReg, execSub, execSubn, execShr, execShl, execLdI, execSkp, execSknp, execLdVDt, execLdDtV, execAddI,
      execLdF, mapNext, h]

/-- Parts outside its footprint an instruction leaves as they are. -/
theorem exec_keeps {i : Instr} {s t : State} (ps : List Part) (hps : (footprint i).Disjoint ps) (h : exec i s = .next t) :
    t = overlay ps s t := by
  have := exec_overlay hps s s
  rw [overlay_self, h] at this
  exact Host.Outcome.next.inj this

/-! ## Who reads and writes a part -/

/-- Settles O25: the stack is in the footprint of `CALL` and `RET` alone, the framebuffer in that of `CLS` and `DRW` alone, and a
change of either is an overlay. -/
theorem stackAndScreenUsers : Obligations.StackAndScreenUsers := by
  refine fun s => ⟨fun i k p hcall hret => ?_, fun i f hcls hdrw => ?_⟩
  · have h : (footprint i).Disjoint [.stack, .sp] := by
      cases i with
      | call nnn => exact absurd rfl (hcall nnn)
      | ret => exact absurd rfl hret
      | _ => simp [footprint]
    exact exec_overlay h { s with stack := k, sp := p } s
  · have h : (footprint i).Disjoint [.fb] := by
      cases i with
      | cls => exact absurd rfl hcls
      | drw x y n => exact absurd rfl (hdrw x y n)
      | _ => simp [footprint]
    exact exec_overlay h { s with fb := f } s

/-- No instruction reads or writes the sound timer (R27, R94). -/
theorem footprint_disjoint_st (i : Instr) : (footprint i).Disjoint [.st] := by cases i <;> simp [footprint]

/-- Settles O26: the sound timer is in no footprint, the delay timer in that of its two transfers alone. -/
theorem timerUsers : Obligations.TimerUsers := by
  refine fun s v => ⟨fun i => ?_, fun i hread hwrite => ?_, fun x => rfl, fun x t h => ?_⟩
  · exact exec_overlay (footprint_disjoint_st i) { s with st := v } s
  · have h : (footprint i).Disjoint [.dt] := by
      cases i with
      | ldVDt x => exact absurd rfl (hread x)
      | ldDtV x => exact absurd rfl (hwrite x)
      | _ => simp [footprint]
    exact exec_overlay h (setDt v s) s
  · cases h
    rfl

/-- What the sprite's loop keeps and the fault keeps, `DRW` keeps, whether it draws rows or none. -/
theorem exec_drw_keeps {α : Sort _} (g : State → α) {x y : Reg} {n : Nibble} {s t : State}
    (hdraw : ∀ x0 y0, g (advance (drawSprite x0 y0 n.toNat s)) = g s) (hfault : ∀ i k a, g (raiseIn i k a s) = g s)
    (h : exec (.drw x y n) s = .next t) : g t = g s := by
  simp only [exec, execDrw] at h
  split at h <;> cases h
  · exact hdraw _ _
  · exact withRange_keeps g _ _ _ _ s (hdraw _ _) (hfault _)

/-- An access through `I` leaves `I` alone (R20, D9); so does every instruction whose footprint is without it. -/
theorem exec_I {i : Instr} {s t : State} (h : exec i s = .next t) (hadd : ∀ x, i ≠ .addI x) (hld : ∀ nnn, i ≠ .ldI nnn)
    (hldF : ∀ x, i ≠ .ldF x) : t.I = s.I := by
  cases i with
  | addI x => exact absurd rfl (hadd x)
  | ldI nnn => exact absurd rfl (hld nnn)
  | ldF x => exact absurd rfl (hldF x)
  | drw x y n => exact exec_drw_keeps (·.I) (by simp) (by simp) h
  | ldB | stRange | ldRange =>
    cases h
    exact withRange_keeps (·.I) _ _ _ _ s (by simp) (by simp)
  | _ =>
    rw [exec_keeps [.I] (by simp [footprint]) h]
    rfl

/-- Settles O24: `I` is outside the footprint of every instruction but the seven that R20 lists; two of its three writers do not
read it, and its other readers do not write it. -/
theorem indexRegisterUsers : Obligations.IndexRegisterUsers := by
  refine fun s a => ⟨fun i hadd hld hldF hdrw hldB hst hldR => ?_, fun nnn => rfl, fun x => rfl, fun i t => exec_I⟩
  have h : (footprint i).Disjoint [.I] := by
    cases i with
    | addI x => exact absurd rfl (hadd x)
    | ldI nnn => exact absurd rfl (hld nnn)
    | ldF x => exact absurd rfl (hldF x)
    | drw x y n => exact absurd rfl (hdrw x y n)
    | ldB x => exact absurd rfl (hldB x)
    | stRange x => exact absurd rfl (hst x)
    | ldRange x => exact absurd rfl (hldR x)
    | _ => simp [footprint]
  exact exec_overlay h (setI a s) s

/-! ## The key set, over a whole cycle -/

theorem cycle_of_running {s : State} (h : s.halt = none) (K : KeySet) :
    cycle K s = finishCycle (fetchAndRun (timerTick (supplyKeys K s))) := if_neg (by simp [h])

/-- The end of a cycle discards whatever set was supplied. -/
theorem finishCycle_supplyKeys (K : KeySet) (r : Result) : finishCycle (mapNext (supplyKeys K) r) = finishCycle r := by
  cases r <;> rfl

/-- A fetch does not look at the keys, and only the key skips do. -/
theorem fetchAndRun_supplyKeys {s : State} (hskp : ∀ x, nextInstr s ≠ some (.skp x)) (hsknp : ∀ x, nextInstr s ≠ some (.sknp x))
    (K : KeySet) : fetchAndRun (supplyKeys K s) = mapNext (supplyKeys K) (fetchAndRun s) := by
  have hfetch : fetch (supplyKeys K s) = fetch s := rfl
  unfold fetchAndRun runWord
  rw [hfetch]
  unfold nextInstr at hskp hsknp
  cases hf : fetch s with
  | error a => rfl
  | ok w =>
    simp only [hf] at hskp hsknp ⊢
    cases hd : decodeWord w with
    | none => rfl
    | some i =>
      have h : (footprint i).Disjoint [.keys] := by
        cases i with
        | skp x => exact absurd hd (hskp x)
        | sknp x => exact absurd hd (hsknp x)
        | _ => simp [footprint]
      exact exec_overlay h (supplyKeys K s) s

/-- Settles O27: without a key skip the cycle commutes with the supply of a set, and the end of a cycle discards the set. -/
theorem keysCountInOneCycleAlone : Obligations.KeysCountInOneCycleAlone := by
  refine fun s K J hrun => ⟨fun hskp hsknp => ?_, fun t h k => ?_⟩
  · have hcycle (K : KeySet) : cycle K s = finishCycle (fetchAndRun (timerTick s)) := calc
      cycle K s = finishCycle (fetchAndRun (supplyKeys K (timerTick s))) := cycle_of_running hrun K
      _ = finishCycle (mapNext (supplyKeys K) (fetchAndRun (timerTick s))) := by
        rw [fetchAndRun_supplyKeys (s := timerTick s) hskp hsknp]
      _ = finishCycle (fetchAndRun (timerTick s)) := finishCycle_supplyKeys K _
    rw [hcycle K, hcycle J]
  · rw [cycle_of_running hrun] at h
    obtain ⟨u, -, rfl⟩ := finishCycle_eq_next h
    simp [keyPressed]

/-! ## General registers: what is written (R18, R19) -/

/-- Settles O22: of the instructions that have a register in their footprint, a skip writes none, the others only their
destination, and `VF` where R19 lists it. -/
theorem onlyListedRegistersAreWritten : Obligations.OnlyListedRegistersAreWritten := by
  intro i s t r h hw
  cases i with simp only [Writes, not_or, not_false_eq_true] at hw
  | cls | ret | jp | call | ldI =>
    rw [exec_keeps [.V] (by simp [footprint]) h]
    rfl
  | seImm | sneImm | seReg | sneReg | skp | sknp | ldDtV | addI | ldF =>
    cases h
    simp
  | ldImm | addImm | ldReg | or | and | xor | ldVDt =>
    cases h
    simp [readV_writeV, hw]
  | addReg | sub | subn | shr | shl =>
    cases h
    simp [readV_writeResultFlag, hw]
  | drw x y n => exact exec_drw_keeps (readV · r) (by simp [readV_drawSprite_ne _ _ _ _ _ hw]) (by simp) h
  | ldB | stRange =>
    cases h
    exact withRange_keeps (readV · r) _ _ _ _ s (by simp) (by simp)
  | ldRange x =>
    have hx := x.isLt
    cases h
    exact withRange_keeps (readV · r) _ _ _ _ s
      (by simp only [readV_advance, readV_loadRegs _ (by omega : x.toNat + 1 ≤ 16)]; exact if_neg (by omega)) (by simp)

/-- What an instruction writes is its destination, and `VF` if it is a flag writer (R18). -/
theorem destination_or_flagWriter_of_writes {i : Instr} {r : Reg} (h : Writes i r) :
    Destination i r ∨ (FlagWriter i ∧ r = flagReg) := by
  cases i <;> simp_all [Writes, Destination, FlagWriter]

/-- Settles O21: such an instruction does not write `VF`. -/
theorem onlyFlagWritersChangeVf : Obligations.OnlyFlagWritersChangeVf := by
  intro i s t h hflag hdest
  refine onlyListedRegistersAreWritten i s t flagReg h fun hw => ?_
  obtain hd | ⟨hf, -⟩ := destination_or_flagWriter_of_writes hw
  · exact hdest hd
  · exact hflag hf

/-! ## General registers: what is read (R19) -/

/-- The second state is the first but for the register `r`. -/
def AgreeOff (r : Reg) (s t : State) : Prop := ∃ w, t = writeV r w s

section
variable {r : Reg} {s t : State}

theorem writeV_writeV_same (r : Reg) (v w : Byte) (s : State) : writeV r v (writeV r w s) = writeV r v s := by
  simp [writeV]

theorem writeV_comm {r q : Reg} (h : q ≠ r) (v w : Byte) (s : State) :
    writeV q v (writeV r w s) = writeV r w (writeV q v s) := by
  have hne : r.toNat ≠ q.toNat := fun e => h (BitVec.eq_of_toNat_eq e.symm)
  simp [writeV, Vector.set_comm _ _ hne]

theorem readV_writeV_ne {r q : Reg} (h : r ≠ q) (v : Byte) (s : State) : readV (writeV r v s) q = readV s q := by
  rw [readV_writeV, if_neg h.symm]

/-- An operation that commutes with writes of registers keeps the agreement. -/
theorem AgreeOff.map (f : State → State) (hf : ∀ w s, f (writeV r w s) = writeV r w (f s)) (h : AgreeOff r s t) :
    AgreeOff r (f s) (f t) := by
  obtain ⟨w, rfl⟩ := h
  exact ⟨w, hf w s⟩

/-- So does a write of one value to one register, be it `r` or another. -/
theorem AgreeOff.writeV (q : Reg) (v : Byte) (h : AgreeOff r s t) : AgreeOff r (writeV q v s) (writeV q v t) := by
  obtain ⟨w, rfl⟩ := h
  by_cases hq : q = r
  · subst hq
    exact ⟨v, by simp only [writeV_writeV_same]⟩
  · exact ⟨w, writeV_comm hq v w s⟩

theorem AgreeOff.writeResultFlag (x : Reg) (a f : Byte) (h : AgreeOff r s t) :
    AgreeOff r (writeResultFlag x a f s) (writeResultFlag x a f t) := (h.writeV x a).writeV flagReg f

theorem AgreeOff.advance (h : AgreeOff r s t) : AgreeOff r (advance s) (advance t) := h.map _ fun _ _ => rfl

theorem AgreeOff.skipIf (c : Bool) (h : AgreeOff r s t) : AgreeOff r (skipIf c s) (skipIf c t) :=
  h.map _ fun _ _ => by cases c <;> rfl

theorem AgreeOff.raiseIn (i : Instr) (k : FaultKind) (a : Option Nat) (h : AgreeOff r s t) :
    AgreeOff r (raiseIn i k a s) (raiseIn i k a t) := h.map _ fun _ _ => rfl

theorem AgreeOff.withRange (i : Instr) (lo hi : Nat) (f : State → State) (h : AgreeOff r s t) (hf : AgreeOff r (f s) (f t)) :
    AgreeOff r (withRange i lo hi f s) (withRange i lo hi f t) := by
  unfold Machine.withRange
  split
  · exact h.raiseIn ..
  · exact hf

/-- A loop whose passes keep the agreement keeps it. -/
theorem AgreeOff.forRange {n : Nat} {f : Nat → State → State}
    (hf : ∀ k < n, ∀ s t, AgreeOff r s t → AgreeOff r (f k s) (f k t)) (h : AgreeOff r s t) :
    AgreeOff r (forRange n f s) (forRange n f t) := by
  induction n with
  | zero => exact h
  | succ n ih => exact hf n (by omega) _ _ (ih fun k hk => hf k (by omega))

/-- A store of registers below `n` keeps the agreement off a register from `n` on. -/
theorem AgreeOff.storeRegs {n : Nat} (hn : n ≤ 16) (hr : n ≤ r.toNat) (h : AgreeOff r s t) :
    AgreeOff r (storeRegs n s) (storeRegs n t) := by
  refine h.forRange fun k hk s t hst => ?_
  have hne : r ≠ regOf k := fun e => by
    have := congrArg BitVec.toNat e
    rw [regOf_toNat k (by omega)] at this
    omega
  obtain ⟨w, rfl⟩ := hst
  exact ⟨w, by simp only [storeReg, readV_writeV_ne hne]; rfl⟩

theorem AgreeOff.loadRegs (n : Nat) (h : AgreeOff r s t) : AgreeOff r (loadRegs n s) (loadRegs n t) := by
  refine h.forRange fun k _ s t hst => ?_
  obtain ⟨w, rfl⟩ := hst
  exact AgreeOff.writeV _ _ ⟨w, rfl⟩

/-- A pixel is drawn alike whatever `r` holds, `VF` too: the draw writes `VF` and does not read it. -/
theorem AgreeOff.drawPixel (x0 y0 q : Nat) (b : Byte) (c : Nat) (h : AgreeOff r s t) :
    AgreeOff r (drawPixel x0 y0 q b c s) (drawPixel x0 y0 q b c t) := by
  have hpixel (px py) : pixel t px py = pixel s px py := by obtain ⟨w, rfl⟩ := h; rfl
  have hparams : t.params = s.params := by obtain ⟨w, rfl⟩ := h; rfl
  unfold Machine.drawPixel
  split
  · split
    · simp only [hpixel, hparams]
      exact (h.writeV _ _).map _ fun _ _ => rfl
    · exact h
  · exact h

theorem AgreeOff.drawSprite (x0 y0 n : Nat) (h : AgreeOff r s t) :
    AgreeOff r (drawSprite x0 y0 n s) (drawSprite x0 y0 n t) := by
  refine h.forRange fun q _ s t hst => ?_
  have hbyte : memRead t (baseI t + q) = memRead s (baseI s + q) := by obtain ⟨w, rfl⟩ := hst; rfl
  simp only [drawRow, hbyte]
  exact hst.forRange fun c _ s t hst => hst.drawPixel ..

/-- States that agree off `r` differ in no other part and no other register. -/
theorem AgreeOff.frame (h : AgreeOff r s t) :
    KeepsAllBut [.V] s t ∧ ∀ q, q ≠ r → readV t q = readV s q := by
  obtain ⟨w, rfl⟩ := h
  refine ⟨fun p hp => ?_, fun q hq => readV_writeV_ne hq.symm w s⟩
  cases p with
  | V => exact absurd (List.mem_singleton.mpr rfl) hp
  | mem => exact fun _ => rfl
  | fb => exact fun _ _ => rfl
  | _ => rfl

end

/-- The shift operand is the one register that the shift reads. -/
theorem shiftOperand_writeV {r x y : Reg} {v : Byte} {s : State} (h : ¬ Reads s.params.shiftSource (.shr x y) r) :
    shiftOperand (writeV r v s) x y = shiftOperand s x y := by
  unfold shiftOperand
  simp only [Reads] at h
  cases hs : s.params.shiftSource <;> simp only [hs] at h <;> simp [hs, readV_writeV_ne h]

/-- An instruction with no register in its footprint commutes with a write of one. -/
theorem exec_writeV_of_disjoint {i : Instr} {r : Reg} {s t : State} (v : Byte) (hps : (footprint i).Disjoint [.V])
    (h : exec i s = .next t) : exec i (writeV r v s) = .next (writeV r v t) := by
  have hV : t.V = s.V := by rw [exec_keeps [.V] hps h]; rfl
  calc exec i (writeV r v s)
    _ = mapNext (overlay [.V] (writeV r v s)) (exec i s) := exec_overlay hps (writeV r v s) s
    _ = .next (writeV r v t) := by rw [h]; simp [mapNext, overlay, writeV, hV]

/-- A change of a register that an instruction does not read is a change of that register in what the instruction leaves. -/
theorem exec_agreeOff {i : Instr} {r : Reg} {s t : State} (v : Byte) (hr : ¬ Reads s.params.shiftSource i r)
    (h : exec i s = .next t) : ∃ u, exec i (writeV r v s) = .next u ∧ AgreeOff r t u := by
  have hs : AgreeOff r s (writeV r v s) := ⟨v, rfl⟩
  cases i with
  | cls | ret | jp | call | ldI =>
    exact ⟨_, exec_writeV_of_disjoint v (by simp [footprint]) h, v, rfl⟩
  | seImm | sneImm | skp | sknp =>
    cases h
    refine ⟨_, rfl, ?_⟩
    simp only [readV_writeV_ne hr, keyPressed_writeV]
    exact hs.skipIf _
  | seReg | sneReg =>
    obtain ⟨hx, hy⟩ := not_or.mp hr
    cases h
    refine ⟨_, rfl, ?_⟩
    simp only [readV_writeV_ne hx, readV_writeV_ne hy]
    exact hs.skipIf _
  | ldImm | ldVDt =>
    cases h
    exact ⟨_, rfl, (hs.writeV _ _).advance⟩
  | addImm | ldReg =>
    cases h
    refine ⟨_, rfl, ?_⟩
    simp only [readV_writeV_ne hr]
    exact (hs.writeV _ _).advance
  | or | and | xor =>
    obtain ⟨hx, hy⟩ := not_or.mp hr
    cases h
    refine ⟨_, rfl, ?_⟩
    simp only [readV_writeV_ne hx, readV_writeV_ne hy]
    exact (hs.writeV _ _).advance
  | addReg | sub | subn =>
    obtain ⟨hx, hy⟩ := not_or.mp hr
    cases h
    refine ⟨_, rfl, ?_⟩
    simp only [readV_writeV_ne hx, readV_writeV_ne hy]
    exact (hs.writeResultFlag ..).advance
  | shr | shl =>
    cases h
    refine ⟨_, rfl, ?_⟩
    simp only [shiftOperand_writeV hr]
    exact (hs.writeResultFlag ..).advance
  | drw x y n =>
    obtain ⟨hx, hy⟩ := not_or.mp hr
    have hdraw := fun x0 y0 => (hs.drawSprite x0 y0 n.toNat).advance
    simp only [exec, execDrw] at h ⊢
    split at h <;> cases h
    · simp only [if_pos ‹_›]
      refine ⟨_, rfl, ?_⟩
      simp only [readV_writeV_ne hx, readV_writeV_ne hy]
      exact hdraw _ _
    · simp only [if_neg ‹_›]
      refine ⟨_, rfl, hs.withRange _ _ _ _ ?_⟩
      simp only [readV_writeV_ne hx, readV_writeV_ne hy]
      exact hdraw _ _
  | ldDtV | addI | ldF =>
    cases h
    refine ⟨_, rfl, ?_⟩
    simp only [readV_writeV_ne hr]
    exact AgreeOff.advance (hs.map _ fun _ _ => rfl)
  | ldB x =>
    cases h
    refine ⟨_, rfl, hs.withRange _ _ _ _ ?_⟩
    simp only [readV_writeV_ne hr]
    exact AgreeOff.advance (hs.map _ fun _ _ => rfl)
  | stRange x =>
    have hx : x.toNat < r.toNat := by simpa [Reads] using hr
    cases h
    exact ⟨_, rfl, hs.withRange _ _ _ _ (hs.storeRegs x.isLt hx).advance⟩
  | ldRange x =>
    cases h
    exact ⟨_, rfl, hs.withRange _ _ _ _ (hs.loadRegs _).advance⟩

/-- Settles O23: the two runs end in states that agree off the register. -/
theorem unreadRegistersDoNotMatter : Obligations.UnreadRegistersDoNotMatter := by
  intro i s t r v hr h
  obtain ⟨u, hu, hagree⟩ := exec_agreeOff v hr h
  exact ⟨u, hu, hagree.frame⟩

/-! ## The pc (R22), and what a meaning that raises a fault leaves (R101) -/

/-- `RET` pops an occupied slot, or raises StackUnderflow (R61, R98). -/
theorem exec_ret (s : State) :
    exec .ret s = if h : 0 < s.sp.val then
      .next (setPc (s.stack[s.sp.val - 1]'(by omega) + 2) { s with sp := ⟨s.sp.val - 1, by omega⟩ })
    else .next (raiseIn .ret .stackUnderflow none s) := by
  simp only [exec, execRet, pop?_eq]
  by_cases h : 0 < s.sp.val <;> simp [h]

/-- `CALL` pushes its own address into a free slot, or raises StackOverflow (R63, R97). -/
theorem exec_call (nnn : Addr12) (s : State) :
    exec (.call nnn) s = if h : s.sp.val < 16 then
      .next (setPc (addrOf nnn) { s with stack := s.stack.set s.sp.val s.pc h, sp := ⟨s.sp.val + 1, by omega⟩ })
    else .next (raiseIn (.call nnn) .stackOverflow none s) := by
  simp only [exec, execCall, push?_eq]
  by_cases h : s.sp.val < 16 <;> simp [h]

theorem exec_answers_next (i : Instr) (s : State) : ∃ t, exec i s = .next t := by
  cases i with
  | ret =>
    rw [exec_ret]
    split <;> exact ⟨_, rfl⟩
  | call =>
    rw [exec_call]
    split <;> exact ⟨_, rfl⟩
  | drw =>
    simp only [exec, execDrw]
    split <;> exact ⟨_, rfl⟩
  | _ => exact ⟨_, rfl⟩

/-- The meaning of `i` completes: it raises no fault, and goes where the table of R22 says. -/
def Completes (i : Instr) (s t : State) : Prop := t.halt = s.halt ∧ t.pc = nextPc s i

/-- The meaning of `i` raises a fault with a record of the right shape, and does nothing else. -/
def Raises (i : Instr) (s t : State) : Prop :=
  ∃ k a, t = raiseIn i k a s ∧ FaultRecord.WellShaped ⟨k, s.pc, some (encodeWord i), a⟩

theorem completes_advance {i : Instr} {s u : State} (hnext : nextPc s i = s.pc + 2) (hhalt : u.halt = s.halt)
    (hpc : u.pc = s.pc) : Completes i s (advance u) := ⟨hhalt, by rw [advance_pc, hpc, hnext]⟩

theorem skipIf_pc_eq_skipTo {c : Bool} {p : Prop} [Decidable p] (h : c = true ↔ p) (s : State) :
    (skipIf c s).pc = skipTo s.pc p := by
  simp only [skipIf_pc, skipTo, h]

theorem raises_stack_fault (i : Instr) (s : State) {k : FaultKind} (hk : k ≠ .memoryOutOfRange) :
    Raises i s (raiseIn i k none s) := ⟨k, none, rfl, by simp [FaultRecord.WellShaped, hk]⟩

/-- An access has its effect, or raises MemoryOutOfRange with an address above memory (R99). -/
theorem withRange_completes_or_raises {i : Instr} {lo hi : Nat} {f : State → State} {s : State} (hf : Completes i s (f s)) :
    Completes i s (withRange i lo hi f s) ∨ Raises i s (withRange i lo hi f s) := by
  by_cases h : hi ≤ 0xFFF
  · exact .inl (withRange_ok i lo hi f s h ▸ hf)
  · rw [withRange_fault i lo hi f s (by omega)]
    exact .inr ⟨_, _, rfl, by simp [FaultRecord.WellShaped]⟩

theorem addrOf_eq (nnn : Addr12) : addrOf nnn = BitVec.ofNat 16 nnn.toNat := by
  have := nnn.isLt
  exact BitVec.eq_of_toNat_eq (by simp; omega)

theorem nextPc_ret (s : State) :
    nextPc s .ret = if h : 0 < s.sp.val then s.stack[s.sp.val - 1]'(by omega) + 2 else s.pc := rfl

/-- What a meaning can answer: it completes, or it raises a fault. -/
theorem exec_completes_or_raises {i : Instr} {s t : State} (h : exec i s = .next t) : Completes i s t ∨ Raises i s t := by
  cases i with
  | ret =>
    rw [exec_ret] at h
    split at h <;> cases h
    · rename_i hsp
      exact .inl ⟨rfl, ((nextPc_ret s).trans (dif_pos hsp)).symm⟩
    · exact .inr (raises_stack_fault _ s (by decide))
  | call nnn =>
    rw [exec_call] at h
    split at h <;> cases h
    · exact .inl ⟨rfl, addrOf_eq nnn⟩
    · exact .inr (raises_stack_fault _ s (by decide))
  | jp nnn =>
    cases h
    exact .inl ⟨rfl, addrOf_eq nnn⟩
  | seImm | sneImm | seReg | sneReg | skp | sknp =>
    cases h
    exact .inl ⟨skipIf_halt .., skipIf_pc_eq_skipTo (by simp [keyPressed_keyOf]) s⟩
  | drw x y n =>
    simp only [exec, execDrw] at h
    split at h <;> cases h
    · exact .inl (completes_advance rfl (by simp) (by simp))
    · exact withRange_completes_or_raises (completes_advance rfl (by simp) (by simp))
  | ldB | stRange | ldRange =>
    cases h
    exact withRange_completes_or_raises (completes_advance rfl (by simp) (by simp))
  | _ =>
    cases h
    exact .inl ⟨rfl, rfl⟩

/-- Settles O20: a completed meaning has the pc of the table, a raised fault leaves the pc where it was. -/
theorem pcFollowsTheTable : Obligations.PcFollowsTheTable := by
  intro s i hrun
  obtain ⟨t, ht⟩ := exec_answers_next i s
  refine ⟨t, ht, ?_⟩
  obtain ⟨hhalt, hpc⟩ | ⟨k, a, rfl, -⟩ := exec_completes_or_raises ht
  · rw [hpc, if_pos (hhalt.trans hrun)]
  · simp

/-! ## The invariant -/

/-- Settles O57: memory lists nothing, no slot is occupied, and there is no fault record. -/
theorem resetMeetsTheInvariant : Obligations.ResetMeetsTheInvariant where
  mem := reset_mem_wf
  pc := by decide
  stack := fun j hj => absurd hj (Nat.not_lt_zero j.val)
  sound := rfl
  fault := nofun

/-- Every store is inside memory, or it is not made. -/
theorem exec_mem_wf {i : Instr} {s t : State} (h : exec i s = .next t) (hwf : Memory.wf s.mem = true) :
    Memory.wf t.mem = true := by
  cases i with
  | drw x y n => rwa [exec_drw_keeps (·.mem) (by simp) (by simp) h]
  | ldRange x =>
    cases h
    rwa [withRange_keeps (·.mem) _ _ _ _ s (by simp) (by simp)]
  | ldB x =>
    cases h
    by_cases hin : baseI s + 2 ≤ 0xFFF
    · rw [withRange_ok _ _ _ _ _ hin]
      exact memWriteList_wf _ _ s (by simp [bcdDigits]; omega) hwf
    · rwa [withRange_fault _ _ _ _ _ (by omega)]
  | stRange x =>
    cases h
    by_cases hin : baseI s + x.toNat ≤ 0xFFF
    · rw [withRange_ok _ _ _ _ _ hin]
      exact storeRegs_wf _ s (by omega) hwf
    · rwa [withRange_fault _ _ _ _ _ (by omega)]
  | _ =>
    rw [exec_keeps [.mem] (by simp [footprint]) h]
    exact hwf

/-- An occupied slot was occupied before, with the same value, or holds the pc that a call has pushed (R61, R63). -/
theorem exec_slot {i : Instr} {s t : State} (h : exec i s = .next t) (j : Fin 16) (hj : j.val < t.sp.val) :
    (j.val < s.sp.val ∧ t.stack[j.val] = s.stack[j.val]) ∨ t.stack[j.val] = s.pc := by
  cases i with
  | ret =>
    rw [exec_ret] at h
    split at h <;> cases h
    · exact .inl ⟨hj.trans_le (Nat.sub_le _ _), rfl⟩
    · exact .inl ⟨hj, rfl⟩
  | call nnn =>
    rw [exec_call] at h
    split at h <;> cases h
    · rename_i hsp
      by_cases hjsp : s.sp.val = j.val
      · exact .inr (by simp [hjsp])
      · have hj : j.val < s.sp.val + 1 := hj
        exact .inl ⟨by omega, Vector.getElem_set_ne hsp _ hjsp⟩
    · exact .inl ⟨hj, rfl⟩
  | _ =>
    rw [exec_keeps [.stack, .sp] (by simp [footprint]) h] at hj ⊢
    exact .inl ⟨hj, rfl⟩

/-- No instruction writes the sound timer (R27, R94). -/
theorem exec_st {i : Instr} {s t : State} (h : exec i s = .next t) : t.st = s.st := by
  rw [exec_keeps [.st] (footprint_disjoint_st i) h]
  rfl

theorem toNat_add_le (p q : Word) : (p + q).toNat ≤ p.toNat + q.toNat := by
  rw [BitVec.toNat_add]
  exact Nat.mod_le _ _

theorem toNat_add_two_le (p : Word) : (p + 2).toNat ≤ p.toNat + 2 := toNat_add_le p 2

theorem skipTo_le {p : Word} (h : p.toNat ≤ 0xFFE) (c : Prop) [Decidable c] : (skipTo p c).toNat ≤ 0x1002 := by
  have h4 : (p + 4).toNat ≤ p.toNat + 4 := toNat_add_le p 4
  have h2 := toNat_add_two_le p
  unfold skipTo
  split <;> omega

/-- R23: from an instruction that could be fetched, a skip reaches 0x1002 at most, a jump 0xFFF, a return 0x1000. -/
theorem nextPc_le {s : State} (hs : Inv s) (hpc : s.pc.toNat ≤ 0xFFE) (i : Instr) : (nextPc s i).toNat ≤ 0x1002 := by
  cases i with
  | seImm | sneImm | seReg | sneReg | skp | sknp => exact skipTo_le hpc _
  | jp nnn | call nnn =>
    have haddr : (BitVec.ofNat 16 nnn.toNat).toNat ≤ 0x1002 := by
      have := nnn.isLt
      rw [← addrOf_eq, addrOf_toNat]
      omega
    exact haddr
  | ret =>
    rw [nextPc_ret]
    split
    · have hslot : (s.stack[s.sp.val - 1]'(by omega)).toNat ≤ 0xFFE :=
        hs.stack ⟨s.sp.val - 1, by omega⟩ (by simp only; omega)
      exact (toNat_add_two_le _).trans (by omega)
    · omega
  | _ => exact (toNat_add_two_le s.pc).trans (by omega)

theorem raiseFault_inv {s : State} {k : FaultKind} {w : Option Word} {a : Option Nat} (hs : Inv s)
    (hw : FaultRecord.WellShaped ⟨k, s.pc, w, a⟩) : Inv (raiseFault k w a s) where
  mem := hs.mem
  pc := hs.pc
  stack := hs.stack
  sound := hs.sound
  fault := fun r hr => by
    cases hr
    exact ⟨rfl, hw⟩

theorem timerTick_inv {s : State} (hs : Inv s) : Inv (timerTick s) where
  mem := hs.mem
  pc := hs.pc
  stack := hs.stack
  sound := by simp [hs.sound, decTimer]
  fault := hs.fault

theorem endCycle_inv {s : State} (hs : Inv s) : Inv (endCycle s) := ⟨hs.mem, hs.pc, hs.stack, hs.sound, hs.fault⟩

theorem exec_inv {i : Instr} {s t : State} (hs : Inv s) (hrun : Running s) (hpc : s.pc.toNat ≤ 0xFFE)
    (h : exec i s = .next t) : Inv t := by
  obtain ⟨hhalt, hnext⟩ | ⟨k, a, rfl, hw⟩ := exec_completes_or_raises h
  · refine ⟨exec_mem_wf h hs.mem, hnext ▸ nextPc_le hs hpc i, fun j hj => ?_, (exec_st h).trans hs.sound, fun r hr => ?_⟩
    · obtain ⟨hj, hslot⟩ | hslot := exec_slot h j hj
      · exact hslot ▸ hs.stack j hj
      · exact hslot ▸ hpc
    · rw [hhalt, hrun] at hr
      cases hr
  · exact raiseFault_inv hs hw

/-- The fetch fault's record is the one with no word, and its pc is one that no fetch can read (R40). -/
theorem fetchAndRun_inv {s t : State} (hs : Inv s) (hrun : Running s) (h : fetchAndRun s = .next t) : Inv t := by
  obtain ⟨a, hf, rfl⟩ | ⟨w, -, -, rfl⟩ | ⟨w, i, hf, -, hexec⟩ := fetchAndRun_eq_next h
  · have hpc : 0xFFE < s.pc.toNat := by
      by_contra hle
      rw [fetch_ok s (by omega)] at hf
      cases hf
    rw [fetch_error s hpc] at hf
    cases hf
    exact raiseFault_inv hs (by simp [FaultRecord.WellShaped, hpc])
  · exact raiseFault_inv hs (by simp [FaultRecord.WellShaped])
  · have hpc : s.pc.toNat ≤ 0xFFE := by
      by_contra hgt
      rw [fetch_error s (by omega)] at hf
      cases hf
    exact exec_inv hs hrun hpc hexec

/-- Settles O58: the timer tick, the fetch with what its word does, and the end of the cycle each keep the invariant. -/
theorem stepKeepsTheInvariant : Obligations.StepKeepsTheInvariant := by
  intro s t hs h
  obtain ⟨-, rfl⟩ | ⟨hrun, u, hu, rfl⟩ := step_eq_next h
  · exact hs
  · exact endCycle_inv (fetchAndRun_inv (timerTick_inv hs) hrun hu)

end Sys2Proof.Proofs

/-! # Memory: the fetch, and who reads and writes it (20_memory.md) -/

namespace Sys2Proof.Proofs

open Sys2Proof.Machine Sys2Proof.Safety

/-! ## The fetch (R38 to R40) -/

/-- Settles O7: the fetch joins the two bytes at the pc, wherever it stands in memory. -/
theorem fetchReadsTheBigEndianWord : Obligations.FetchReadsTheBigEndianWord :=
  fun s => ⟨fun h => ⟨_, fetch_ok s h, joinBytes_toNat _ _⟩, fetch_error s⟩

theorem fetchAndRun_of_fetch_error {s : State} {a : Nat} (h : fetch s = .error a) :
    fetchAndRun s = .next (raiseFault .memoryOutOfRange none (some a) s) := by
  simp only [fetchAndRun, h]

/-- A fault taken within a cycle: around it stand the timer tick and the end of the cycle, and nothing else (R100, R101). -/
theorem onlyFaulted_of_raiseFault (kind : FaultKind) (w : Option Word) (a : Option Nat) (s : State) :
    OnlyFaulted s (endCycle (raiseFault kind w a (timerTick s))) := by
  refine ⟨fun p hp => ?_, decTimer_toNat s.dt, decTimer_toNat s.st, fun k => noKeys_get _ _⟩
  cases p with
  | halt | keys | dt | st => simp at hp
  | _ => simp [Part.Same]

/-- Settles O14: the timer tick leaves the pc where it was, so the fetch faults there. -/
theorem fetchOutsideMemoryHalts : Obligations.FetchOutsideMemoryHalts := by
  intro s hrun hpc
  have hfetch : fetch (timerTick s) = .error (max s.pc.toNat 0x1000) := fetch_error (timerTick s) hpc
  refine ⟨_, ?_, rfl, onlyFaulted_of_raiseFault _ _ _ s⟩
  rw [step_of_running hrun, fetchAndRun_of_fetch_error hfetch]
  rfl

/-! ## The bytes that a store leaves -/

/-- The bytes in their places, whatever stood there. -/
theorem memRead_memWriteList_inside {l : List Byte} {a b : Nat} (s : State) (hlo : a ≤ b) (hhi : b < a + l.length) :
    memRead (memWriteList a l s) b = l[b - a] := by
  rw [memRead_memWriteList, if_pos hlo, List.getD_eq_getElem _ _ (by omega)]

theorem memRead_memWriteList_outside {l : List Byte} {a b : Nat} (s : State) (h : ¬ (a ≤ b ∧ b < a + l.length)) :
    memRead (memWriteList a l s) b = memRead s b := by
  rw [memRead_memWriteList]
  split
  · exact List.getD_eq_default _ _ (by omega)
  · rfl

theorem memRead_storeRegs_of_lt {n : Nat} (s : State) {r : Reg} (h : r.toNat < n) :
    memRead (storeRegs n s) (baseI s + r.toNat) = readV s r := by
  rw [memRead_storeRegs, if_pos (by omega), Nat.add_sub_cancel_left, regOf_of_toNat]

theorem exec_stRange_of_le {x : Reg} {s : State} (h : s.I.toNat + x.toNat ≤ 0xFFF) :
    exec (.stRange x) s = .next (advance (storeRegs (x.toNat + 1) s)) :=
  congrArg _ (withRange_ok _ _ _ _ _ h)

/-- Settles O49: the fetch reads memory as the store left it, and the two bytes at its address are two stored registers. -/
theorem storedBytesAreFetched : Obligations.StoredBytesAreFetched := by
  intro x k s t hin hk h
  cases (exec_stRange_of_le hin).symm.trans h
  have hx := x.isLt
  have hpc : (BitVec.ofNat 16 (s.I.toNat + k.toNat)).toNat = s.I.toNat + k.toNat :=
    (BitVec.toNat_ofNat ..).trans (Nat.mod_eq_of_lt (by omega))
  have hk1 : (k + 1).toNat = k.toNat + 1 :=
    (BitVec.toNat_add k 1).trans (Nat.mod_eq_of_lt (show k.toNat + 1 < 16 by omega))
  have hhi := memRead_storeRegs_of_lt s (r := k) (n := x.toNat + 1) (by omega)
  have hlo := memRead_storeRegs_of_lt s (r := k + 1) (n := x.toNat + 1) (by omega)
  rw [hk1, ← Nat.add_assoc] at hlo
  refine ⟨_, fetch_ok _ (by rw [setPc_pc, hpc]; omega), ?_⟩
  simp only [joinBytes_toNat, setPc_pc, hpc, memRead_setPc, memRead_advance]
  rw [hhi, hlo]

/-! ## Who reads and writes memory (R36) -/

@[simp] theorem readV_withMem (m : Memory) (s : State) (r : Reg) : readV { s with mem := m } r = readV s r := rfl
@[simp] theorem baseI_withMem (m : Memory) (s : State) : baseI { s with mem := m } = baseI s := rfl
@[simp] theorem pixel_withMem (m : Memory) (s : State) (px : Fin 64) (py : Fin 32) :
    pixel { s with mem := m } px py = pixel s px py := rfl

/-- A store to `lo .. hi` whose bytes do not come from memory: over another memory it leaves the same bytes there and that memory
elsewhere, and when it faults it leaves that memory (D11). -/
theorem withRange_withMem {i : Instr} {lo hi : Nat} {f : State → State} {s : State} {m : Memory}
    (hframe : KeepsAllBut [.mem] (f s) (f { s with mem := m }))
    (hbytes : ∀ a, memRead (f { s with mem := m }) a = if lo ≤ a ∧ a ≤ hi then memRead (f s) a else Memory.read m a) :
    KeepsAllBut [.mem] (withRange i lo hi f s) (withRange i lo hi f { s with mem := m }) ∧
      ∀ a, memRead (withRange i lo hi f { s with mem := m }) a =
        if hi ≤ 0xFFF ∧ lo ≤ a ∧ a ≤ hi then memRead (withRange i lo hi f s) a else Memory.read m a := by
  by_cases h : hi ≤ 0xFFF
  · simp only [withRange_ok _ _ _ _ _ h, h, true_and]
    exact ⟨hframe, hbytes⟩
  · simp only [withRange_fault _ _ _ _ _ (Nat.lt_of_not_le h), h, false_and, if_false]
    refine ⟨fun p hp => ?_, fun a => rfl⟩
    cases p with
    | mem => simp at hp
    | _ => simp [Part.Same]

/-- The digits that `LD B` stores are those of a register (R87). -/
theorem exec_ldB_withMem (x : Reg) (m : Memory) (s : State) :
    ∃ t u, exec (.ldB x) s = .next t ∧ exec (.ldB x) { s with mem := m } = .next u ∧ KeepsAllBut [.mem] t u ∧
      ∀ a, memRead u a =
        if s.I.toNat + 2 ≤ 0xFFF ∧ s.I.toNat ≤ a ∧ a ≤ s.I.toNat + 2 then memRead t a else Memory.read m a := by
  refine ⟨_, _, rfl, rfl, withRange_withMem (fun p hp => ?_) fun a => ?_⟩
  · cases p with
    | mem => simp at hp
    | _ => simp [Part.Same]
  · have hlen : (bcdDigits (readV s x)).length = 3 := rfl
    simp only [memRead_advance, readV_withMem, baseI_withMem]
    split
    · rw [memRead_memWriteList_inside _ (by omega) (by omega), memRead_memWriteList_inside _ (by omega) (by omega)]
    · exact memRead_memWriteList_outside _ (by omega)

/-- The bytes that `LD [I]` stores are those of registers (R88). -/
theorem exec_stRange_withMem (x : Reg) (m : Memory) (s : State) :
    ∃ t u, exec (.stRange x) s = .next t ∧ exec (.stRange x) { s with mem := m } = .next u ∧ KeepsAllBut [.mem] t u ∧
      ∀ a, memRead u a =
        if s.I.toNat + x.toNat ≤ 0xFFF ∧ s.I.toNat ≤ a ∧ a ≤ s.I.toNat + x.toNat then memRead t a else Memory.read m a := by
  refine ⟨_, _, rfl, rfl, withRange_withMem (fun p hp => ?_) fun a => ?_⟩
  · cases p with
    | mem => simp at hp
    | _ => simp [Part.Same]
  · simp only [memRead_advance, memRead_storeRegs, readV_withMem, Nat.lt_succ_iff, ← Nat.add_assoc]
    split <;> rfl

/-- Only the four accesses of R36 have memory in their footprint. -/
theorem footprint_disjoint_mem {i : Instr} (hdrw : ∀ x y n, i ≠ .drw x y n) (hldB : ∀ x, i ≠ .ldB x)
    (hst : ∀ x, i ≠ .stRange x) (hldR : ∀ x, i ≠ .ldRange x) : (footprint i).Disjoint [.mem] := by
  cases i with
  | drw x y n => exact absurd rfl (hdrw x y n)
  | ldB x => exact absurd rfl (hldB x)
  | stRange x => exact absurd rfl (hst x)
  | ldRange x => exact absurd rfl (hldR x)
  | _ => simp [footprint]

/-- `DRW` and `LD Vx, [I]` read memory and do not write it (R59, R89). -/
theorem exec_mem {i : Instr} {s t : State} (h : exec i s = .next t) (hldB : ∀ x, i ≠ .ldB x) (hst : ∀ x, i ≠ .stRange x) :
    t.mem = s.mem := by
  cases i with
  | ldB x => exact absurd rfl (hldB x)
  | stRange x => exact absurd rfl (hst x)
  | drw x y n => exact exec_drw_keeps (·.mem) (by simp) (by simp) h
  | ldRange x =>
    cases h
    exact withRange_keeps (·.mem) _ _ _ _ s (by simp) (by simp)
  | _ =>
    rw [exec_keeps [.mem] (by simp [footprint]) h]
    rfl

/-- Settles O28: memory is outside the footprint of every instruction but the four accesses; the two loads leave it alone, and the
two stores write bytes that do not depend on it. -/
theorem memoryUsers : Obligations.MemoryUsers := by
  refine fun s => ⟨fun i m hdrw hldB hst hldR => ?_, fun i t h hldB hst a => ?_, fun x m => exec_ldB_withMem x m s,
    fun x m => exec_stRange_withMem x m s⟩
  · exact exec_overlay (footprint_disjoint_mem hdrw hldB hst hldR) { s with mem := m } s
  · exact congrArg (Memory.read · a) (exec_mem h hldB hst)

end Sys2Proof.Proofs

/-! # The encoding, and the cycle that dispatches what it decodes (30_encoding.md) -/

namespace Sys2Proof.Proofs

open Sys2Proof.Machine Sys2Proof.Safety

/-! ## Decoding undoes encoding (R49 to R51) -/

/-- Dispatch on the leading nibble finds the instruction's group, and within it the remaining fixed bits find the instruction. -/
theorem decodeWord_encodeWord (i : Instr) : decodeWord (encodeWord i) = some i := by
  cases i with
  | cls | ret => rfl
  | _ => simp [decodeWord, encodeWord, decodeAlu, decodeKey, decodeMisc]

theorem decode_cons_cons_eq_ok_iff {hi lo : Byte} {tail rest : List Byte} {i : Instr} :
    decode (hi :: lo :: tail) = .ok (i, rest) ↔ decodeWord (joinBytes hi lo) = some i ∧ tail = rest := by
  cases h : decodeWord (joinBytes hi lo) <;> simp [decode, h]

/-- Settles O1: the two bytes of the encoding join to the encoded word again, and that word decodes to the instruction. -/
theorem decodeOfEncodeIsIdentity : Obligations.DecodeOfEncodeIsIdentity := by
  intro i rest _
  have hword : decodeWord (joinBytes (highByte (encodeWord i)) (lowByte (encodeWord i))) = some i := by
    rw [joinBytes_bytes, decodeWord_encodeWord]
  exact decode_cons_cons_eq_ok_iff.mpr ⟨hword, rfl⟩

/-! ## Encoding undoes decoding: a group at a time, then the whole dispatch of R51 -/

theorem encodeWord_of_decodeFixed {w : Word} {i : Instr} (h : decodeFixed w = some i) : encodeWord i = w := by
  unfold decodeFixed at h
  split at h <;> cases h <;> rfl

theorem encodeWord_of_decodeAlu {x y : Reg} {n : Nibble} {i : Instr} (h : decodeAlu x y n = some i) :
    encodeWord i = 0x8#4 ++ x ++ y ++ n := by
  unfold decodeAlu at h
  split at h <;> cases h <;> rfl

theorem encodeWord_of_decodeKey {x : Reg} {kk : Byte} {i : Instr} (h : decodeKey x kk = some i) :
    encodeWord i = 0xE#4 ++ x ++ kk := by
  unfold decodeKey at h
  split at h <;> cases h <;> rfl

theorem encodeWord_of_decodeMisc {x : Reg} {kk : Byte} {i : Instr} (h : decodeMisc x kk = some i) :
    encodeWord i = 0xF#4 ++ x ++ kk := by
  unfold decodeMisc at h
  split at h <;> cases h <;> rfl

/-- Settles O2: the encoder puts back the leading nibble that selected the branch and the fields that the branch read, and these
are the whole word. -/
theorem encodeOfDecodeIsIdentity : Obligations.EncodeOfDecodeIsIdentity := by
  intro w i h
  unfold decodeWord at h
  split at h
  case h_1 => exact encodeWord_of_decodeFixed h
  case h_2 hop | h_3 hop | h_11 hop =>
    cases h
    rw [encodeWord, ← hop, word_eq_op_nnn]
  case h_4 hop | h_5 hop | h_7 hop | h_8 hop =>
    cases h
    rw [encodeWord, ← hop, word_eq_op_x_kk]
  case h_6 hop | h_10 hop =>
    split at h <;> cases h
    rename_i hn
    change fieldN w = 0x0#4 at hn
    rw [encodeWord, ← hop, ← hn, word_eq_op_x_y_n]
  case h_9 hop => rw [encodeWord_of_decodeAlu h, ← hop, word_eq_op_x_y_n]
  case h_12 hop =>
    cases h
    rw [encodeWord, ← hop, word_eq_op_x_y_n]
  case h_13 hop => rw [encodeWord_of_decodeKey h, ← hop, word_eq_op_x_kk]
  case h_14 hop => rw [encodeWord_of_decodeMisc h, ← hop, word_eq_op_x_kk]
  case h_15 => cases h

/-! ## The invalid words (R53) -/

theorem fieldOp_toNat (w : Word) : (fieldOp w).toNat = w.toNat / 0x1000 := by
  have := w.isLt
  simp [fieldOp, Nat.shiftRight_eq_div_pow]; omega

theorem fieldN_toNat (w : Word) : (fieldN w).toNat = w.toNat % 16 := by simp [fieldN]

theorem fieldKk_toNat (w : Word) : (fieldKk w).toNat = w.toNat % 256 := by simp [fieldKk]

theorem decodeFixed_eq_none_iff (w : Word) : decodeFixed w = none ↔ w.toNat ≠ 0x00E0 ∧ w.toNat ≠ 0x00EE := by
  unfold decodeFixed
  split
  case h_3 => simp only [true_iff, imp_false] at *; bv_omega
  all_goals decide

theorem decodeAlu_eq_none_iff (x y : Reg) (n : Nibble) :
    decodeAlu x y n = none ↔ n.toNat ∈ [0x8, 0x9, 0xA, 0xB, 0xC, 0xD, 0xF] := by
  unfold decodeAlu
  split
  case h_10 => simp only [List.mem_cons, List.not_mem_nil, true_iff, imp_false] at *; bv_omega
  all_goals simp

theorem decodeKey_eq_none_iff (x : Reg) (kk : Byte) : decodeKey x kk = none ↔ kk.toNat ∉ [0x9E, 0xA1] := by
  unfold decodeKey
  split
  case h_3 => simp only [List.mem_cons, List.not_mem_nil, or_false, not_or, true_iff, imp_false] at *; bv_omega
  all_goals simp

theorem decodeMisc_eq_none_iff (x : Reg) (kk : Byte) :
    decodeMisc x kk = none ↔ kk.toNat ∉ [0x07, 0x15, 0x1E, 0x29, 0x33, 0x55, 0x65] := by
  unfold decodeMisc
  split
  case h_8 => simp only [List.mem_cons, List.not_mem_nil, or_false, not_or, true_iff, imp_false] at *; bv_omega
  all_goals simp

/-- Settles O5: the leading nibble selects the group, and each group's own dispatch says which words it leaves out; `B` and `C` are
no group. -/
theorem invalidWordsByLeadingNibble : Obligations.InvalidWordsByLeadingNibble := by
  intro w
  rw [← fieldOp_toNat, ← fieldN_toNat, ← fieldKk_toNat]
  unfold decodeWord
  split
  case h_1 hop => simp [hop, decodeFixed_eq_none_iff]
  case h_6 hop | h_10 hop => simp [hop, BitVec.toNat_eq]
  case h_9 hop => simp [hop, decodeAlu_eq_none_iff]
  case h_13 hop => simp [hop, decodeKey_eq_none_iff]
  case h_14 hop => simp [hop, decodeMisc_eq_none_iff]
  case h_15 =>
    simp only [true_iff, imp_false] at *
    have hop : (fieldOp w).toNat = 0xB ∨ (fieldOp w).toNat = 0xC := by bv_omega
    obtain hB | hC := hop
    · simp [hB]
    · simp [hC]
  all_goals
    rename_i hop
    simp [hop]

/-! ## The opcode map (R50) -/

theorem encodeWord_matchesWord_iff : ∀ i, Laws.EncodesItsRow.Statement i
  | .cls => Laws.EncodesItsRow.cls
  | .ret => Laws.EncodesItsRow.ret
  | .jp nnn => Laws.EncodesItsRow.jp nnn
  | .call nnn => Laws.EncodesItsRow.call nnn
  | .seImm x kk => Laws.EncodesItsRow.seImm x kk
  | .sneImm x kk => Laws.EncodesItsRow.sneImm x kk
  | .seReg x y => Laws.EncodesItsRow.seReg x y
  | .sneReg x y => Laws.EncodesItsRow.sneReg x y
  | .ldImm x kk => Laws.EncodesItsRow.ldImm x kk
  | .addImm x kk => Laws.EncodesItsRow.addImm x kk
  | .ldReg x y => Laws.EncodesItsRow.ldReg x y
  | .or x y => Laws.EncodesItsRow.or x y
  | .and x y => Laws.EncodesItsRow.and x y
  | .xor x y => Laws.EncodesItsRow.xor x y
  | .addReg x y => Laws.EncodesItsRow.addReg x y
  | .sub x y => Laws.EncodesItsRow.sub x y
  | .subn x y => Laws.EncodesItsRow.subn x y
  | .shr x y => Laws.EncodesItsRow.shr x y
  | .shl x y => Laws.EncodesItsRow.shl x y
  | .ldI nnn => Laws.EncodesItsRow.ldI nnn
  | .drw x y n => Laws.EncodesItsRow.drw x y n
  | .skp x => Laws.EncodesItsRow.skp x
  | .sknp x => Laws.EncodesItsRow.sknp x
  | .ldVDt x => Laws.EncodesItsRow.ldVDt x
  | .ldDtV x => Laws.EncodesItsRow.ldDtV x
  | .addI x => Laws.EncodesItsRow.addI x
  | .ldF x => Laws.EncodesItsRow.ldF x
  | .ldB x => Laws.EncodesItsRow.ldB x
  | .stRange x => Laws.EncodesItsRow.stRange x
  | .ldRange x => Laws.EncodesItsRow.ldRange x

/-- The bits that settle whether a word with this leading nibble decodes: all of them in the group `0`, the outer nibbles in `5`, `8`
and `9`, the leading nibble and the low byte in `E` and `F`, and the leading nibble alone elsewhere. -/
def decisiveMask : Nibble → Word
  | 0x0#4 => 0xFFFF#16
  | 0x5#4 | 0x8#4 | 0x9#4 => 0xF00F#16
  | 0xE#4 | 0xF#4 => 0xF0FF#16
  | _ => 0xF000#16

theorem fieldOp_and_decisiveMask (w : Word) (op : Nibble) : fieldOp (w &&& decisiveMask op) = fieldOp w := by
  have hmask : ∀ op, fieldOp (decisiveMask op) = BitVec.allOnes 4 := by decide
  rw [fieldOp_and, hmask, BitVec.and_allOnes]

/-- The other bits do not settle it. -/
theorem decodeWord_and_decisiveMask_eq_none_iff (w : Word) :
    decodeWord (w &&& decisiveMask (fieldOp w)) = none ↔ decodeWord w = none := by
  have hop := fieldOp_and_decisiveMask w (fieldOp w)
  rw [invalidWordsByLeadingNibble, invalidWordsByLeadingNibble w]
  simp only [← fieldOp_toNat, ← fieldN_toNat, ← fieldKk_toNat, hop]
  unfold decisiveMask
  split
  case h_1 =>
    have hall : w &&& 0xFFFF#16 = w := BitVec.and_allOnes
    rw [hall]
  case h_2 h | h_3 h | h_4 h =>
    have hn : fieldN (w &&& 0xF00F#16) = fieldN w := (fieldN_and w _).trans BitVec.and_allOnes
    simp [h, hn]
  case h_5 h | h_6 h =>
    have hkk : fieldKk (w &&& 0xF0FF#16) = fieldKk w := (fieldKk_and w _).trans BitVec.and_allOnes
    simp [h, hkk]
  case h_7 h0 h5 h8 h9 hE hF =>
    simp only [BitVec.toNat_eq, BitVec.toNat_ofNat, imp_false] at h0 h5 h8 h9 hE hF
    simp [h0, h5, h8, h9, hE, hF]

/-- Each row's match decodes, and its mask compares exactly the bits that settle decoding. -/
theorem opcodeRows_decisive : ∀ r ∈ opcodeRows,
    decodeWord r.pattern ≠ none ∧ r.mask = decisiveMask (fieldOp r.pattern) := by
  decide

theorem decodeWord_ne_none_of_matchesWord {w : Word} {r : OpcodeRow} (hr : r ∈ opcodeRows) (h : r.matchesWord w) :
    decodeWord w ≠ none := by
  obtain ⟨hpattern, hmask⟩ := opcodeRows_decisive r hr
  have hand : w &&& decisiveMask (fieldOp r.pattern) = r.pattern := hmask ▸ h
  have hop : fieldOp w = fieldOp r.pattern := by rw [← fieldOp_and_decisiveMask w (fieldOp r.pattern), hand]
  rwa [Ne, ← decodeWord_and_decisiveMask_eq_none_iff, hop, hand]

/-- Settles O3: a word that matches a row decodes; its instruction's word is the word itself, and that matches the instruction's own
row alone. -/
theorem decodingFollowsTheOpcodeMap : Obligations.DecodingFollowsTheOpcodeMap := by
  intro w r hr
  have hrow {i : Instr} (hi : decodeWord w = some i) : r.matchesWord w ↔ r.number = i.rowNumber :=
    encodeOfDecodeIsIdentity w i hi ▸ encodeWord_matchesWord_iff i r hr
  constructor
  · intro h
    obtain ⟨i, hi⟩ := Option.ne_none_iff_exists'.mp (decodeWord_ne_none_of_matchesWord hr h)
    exact ⟨i, hi, ((hrow hi).mp h).symm⟩
  · rintro ⟨i, hi, hnumber⟩
    exact (hrow hi).mpr hnumber.symm

/-- Settles O4: both rows bear the number of the one instruction that the word decodes to, and the thirty numbers are distinct. -/
theorem noTwoRowsMatchOneWord : Obligations.NoTwoRowsMatchOneWord := by
  intro w r q hr hq hrw hqw
  obtain ⟨i, hi, hir⟩ := (decodingFollowsTheOpcodeMap w r hr).mp hrw
  obtain ⟨j, hj, hjq⟩ := (decodingFollowsTheOpcodeMap w q hq).mp hqw
  obtain rfl : i = j := Option.some.inj (hi.symm.trans hj)
  have hnodup : (opcodeRows.map (·.number)).Nodup := by decide
  exact List.inj_on_of_nodup_map hnodup hr hq (hir.symm.trans hjq)

/-! ## The pseudo-shifts (R55) -/

/-- Settles O43: with `y = x` the shifted value is `V[x]` whatever the parameter, and the rest of a shift does not look at it. -/
theorem pseudoShiftsNeedNoParameter : Obligations.PseudoShiftsNeedNoParameter := by
  intro x s p
  have hread : readV { s with params := p } x = readV s x := rfl
  simp only [exec, execShr, execShl, shiftOperand_same, hread]
  exact ⟨rfl, rfl⟩

/-! ## The cycle (R56) -/

theorem fetchAndRun_of_decodeWord {s : State} {w : Word} {i : Instr} (hfetch : fetch s = .ok w) (h : decodeWord w = some i) :
    fetchAndRun s = exec i s := by
  simp only [fetchAndRun, runWord, hfetch, h]

/-- Settles O8: the timer tick leaves the pc and memory alone, so the fetch gives the word of the two bytes, and the meaning of its
instruction answers a next state. -/
theorem stepRunsTheDecodedInstruction : Obligations.StepRunsTheDecodedInstruction := by
  intro s i hrun hpc hdecode
  obtain ⟨hword, -⟩ := decode_cons_cons_eq_ok_iff.mp hdecode
  obtain ⟨t, ht⟩ := exec_answers_next i (timerTick s)
  refine ⟨t, ht, ?_⟩
  rw [step_of_running hrun, fetchAndRun_of_decodeWord (fetch_ok (timerTick s) hpc) hword, ht]
  rfl

/-- Settles O10: the step supplies the keys that already stand in the state, and a supply replaces the set before it. -/
theorem cycleIsAStepWithTheSuppliedKeys : Obligations.CycleIsAStepWithTheSuppliedKeys :=
  fun K s hrun => (cycle_of_running hrun K).trans (step_of_running (s := supplyKeys K s) hrun).symm

/-! ## The host's probe: a word placed for the next fetch (log 27) -/

/-- The pc is put back to the program's start where a fetch would leave memory. -/
theorem placeWord_pc_le (w : Word) (s : State) : (placeWord w s).pc.toNat ≤ 0xFFE := by
  simp only [placeWord, memWrite_pc]
  split
  · decide
  · omega

/-- The fetch reads back the two bytes that were placed. -/
theorem fetch_placeWord (w : Word) (s : State) : fetch (placeWord w s) = .ok w := by
  rw [fetch_ok _ (placeWord_pc_le w s)]
  simp [placeWord, memRead_memWrite]

theorem decodeTableWord_eq (nbits w : Nat) : decodeTableWord nbits w = decodeWord (tableWord nbits w) := by
  unfold decodeTableWord
  cases h : decodeWord (tableWord nbits w) <;> simp [decode, wordBytes, h]

theorem tableWord_of_lt {w : Nat} (h : w < 65536) : tableWord 16 w = BitVec.ofNat 16 w :=
  congrArg (BitVec.ofNat 16) (Nat.mod_eq_of_lt h)

/-- Settles O9: the probe starts the machine, its two writes are read back by the fetch, and the table's word is the number's. -/
theorem placedWordIsTheNextInstruction : Obligations.PlacedWordIsTheNextInstruction := by
  intro s w hw
  have hfetch : fetch (s.withFetchWord 16 w) = .ok (tableWord 16 w) := fetch_placeWord _ s
  refine ⟨rfl, tableWord_of_lt hw ▸ hfetch, ?_⟩
  simp only [nextInstr, hfetch, decodeTableWord_eq]

end Sys2Proof.Proofs

/-! # Clearing the screen and drawing a sprite (40_graphics.md) -/

namespace Sys2Proof.Proofs

open Sys2Proof.Machine Sys2Proof.Safety

/-- Settles O30: the meaning clears the screen and goes to the next word. -/
theorem clearScreen : Obligations.ClearScreen := by
  refine ⟨by decide, fun s => ⟨_, rfl, pixel_clearScreen s, rfl, fun p hp => ?_⟩⟩
  cases p with
  | fb | pc => simp at hp
  | _ => simp [Part.Same]

/-! ## One draw (R59, R60) -/

/-- The pixels that the sprite covers are those that the loop over its rows and columns toggles. -/
theorem covers_eq_spriteHits (s : State) (x y : Reg) (n : Nibble) :
    Covers s x y n = SpriteHits s (originX (readV s x)) (originY (readV s y)) n.toNat := by
  funext px py
  have hreorder (a b c d e : Prop) : (a ∧ b ∧ c ∧ d ∧ e) = (c ∧ d ∧ a ∧ b ∧ e) := propext (by tauto)
  exact hreorder ..

/-- Without a row there is no access to check, and with rows the check is met. -/
theorem exec_drw_of_inside (x y : Reg) {n : Nibble} {s : State} (h : n = 0 ∨ s.I.toNat + n.toNat - 1 ≤ 0xFFF) :
    exec (.drw x y n) s = .next (advance (drawSprite (originX (readV s x)) (originY (readV s y)) n.toNat s)) := by
  simp only [exec, execDrw]
  split
  · rfl
  · rename_i hn
    exact congrArg _ (withRange_ok _ _ _ _ _ (h.resolve_left hn))

/-- What a draw does that raises no fault: it toggles what the sprite covers, writes the flag register as the last of these pixels
says, and keeps the rest. -/
theorem exec_drw_draws (x y : Reg) {n : Nibble} {s : State} (h : n = 0 ∨ s.I.toNat + n.toNat - 1 ≤ 0xFFF) :
    ∃ t, exec (.drw x y n) s = .next t ∧ t.pc = s.pc + 2 ∧ KeepsAllBut [.fb, .V, .pc] s t ∧
      (∀ r, r ≠ flagReg → readV t r = readV s r) ∧ Draws (Covers s x y n) s t := by
  refine ⟨_, exec_drw_of_inside x y h, by simp, fun p hp => ?_, readV_drawSprite_ne _ _ _ s, ?_⟩
  · cases p with
    | fb | V | pc => simp at hp
    | _ => simp [Part.Same, memRead]
  · obtain ⟨htoggled, hkept, hnoFlag, hflag⟩ :=
      drawSprite_draws (originX (readV s x)) (originY (readV s y)) n.toNat s
    rw [covers_eq_spriteHits]
    exact ⟨htoggled, hkept, hnoFlag, hflag⟩

/-- Settles O52, by what a draw toggles and keeps. -/
theorem drawTogglesTheSprite : Obligations.DrawTogglesTheSprite := by
  intro x y n s h
  obtain ⟨t, hexec, hpc, hkeeps, hregs, hdraws⟩ := exec_drw_draws x y h
  exact ⟨t, hexec, hpc, hkeeps, hregs, hdraws.toggled, hdraws.kept⟩

/-- Settles O53: the last pixel in R60's order writes the flag byte of its old value. -/
theorem drawFlagIsTheLastToggledPixel : Obligations.DrawFlagIsTheLastToggledPixel := by
  intro x y n s h
  obtain ⟨t, hexec, -, -, -, hdraws⟩ := exec_drw_draws x y h
  refine ⟨t, hexec, hdraws.noFlag, fun px py hcovers hlast => ?_⟩
  rw [hdraws.flag px py hcovers hlast]
  rfl

/-! ## Two draws -/

/-- What a sprite covers depends on its origin and its bytes alone. -/
theorem covers_congr {s t : State} {x y x2 y2 : Reg} (n : Nibble) (hmem : ∀ a, memRead t a = memRead s a) (hI : t.I = s.I)
    (hx : (readV t x2).toNat % 64 = (readV s x).toNat % 64) (hy : (readV t y2).toNat % 32 = (readV s y).toNat % 32) :
    Covers t x2 y2 n = Covers s x y n := by
  funext px py
  simp only [Covers, hmem, hI, hx, hy]

/-- The same pixels toggled a second time are as they were before the first. -/
theorem pixel_of_draws_draws {hits : Fin 64 → Fin 32 → Prop} {s t u : State} (hst : Draws hits s t) (htu : Draws hits t u)
    (px : Fin 64) (py : Fin 32) : pixel u px py = pixel s px py := by
  by_cases h : hits px py
  · rw [htu.toggled px py h, hst.toggled px py h, Bool.not_not]
  · rw [htu.kept px py h, hst.kept px py h]

/-- Settles O54: the first draw keeps `I` and memory, so the second draw covers the same pixels. -/
theorem drawingTwiceRestoresTheScreen : Obligations.DrawingTwiceRestoresTheScreen := by
  intro x y x2 y2 n s t h ht hx hy
  obtain ⟨_, ht', -, hkeeps, -, hst⟩ := exec_drw_draws x y h
  cases ht'.symm.trans ht
  have hI : t.I = s.I := hkeeps .I (by decide)
  have hmem : ∀ a, memRead t a = memRead s a := hkeeps .mem (by decide)
  obtain ⟨u, hu, -, -, -, htu⟩ := exec_drw_draws x2 y2 (hI ▸ h)
  rw [covers_congr n hmem hI hx hy] at htu
  exact ⟨u, hu, pixel_of_draws_draws hst htu⟩

end Sys2Proof.Proofs

/-! # Jump, call, return and the register skips (41_control_flow.md) -/

namespace Sys2Proof.Proofs

open Sys2Proof.Machine Sys2Proof.Safety

/-! ## Jump (R62) -/

theorem setPc_keepsAllBut_pc (a : Word) (s : State) : KeepsAllBut [.pc] s (setPc a s) := by
  intro p hp
  cases p with
  | pc => simp at hp
  | _ => simp [Part.Same]

/-- Settles O31: a jump writes the pc alone, and from 0xFFF the fetch would read address 0x1000. -/
theorem jumpSetsThePc : Obligations.JumpSetsThePc := by
  refine fun nnn s => ⟨decodeWord_encodeWord (.jp nnn), _, rfl, addrOf_toNat nnn, setPc_keepsAllBut_pc _ s, ?_⟩
  rintro rfl
  exact fetch_error _ (show 0xFFE < (addrOf 0xFFF).toNat by decide)

/-! ## Call and return (R61, R63, R64) -/

/-- Settles O32: with a free slot the meaning of `CALL` is a push and a jump. -/
theorem callPushesItsOwnAddress : Obligations.CallPushesItsOwnAddress := by
  intro nnn s hfree
  refine ⟨_, (exec_call nnn s).trans (dif_pos hfree), rfl, addrOf_toNat nnn, fun j => ?_, fun p hp => ?_⟩
  · simp only [setPc_stack, Vector.getElem_set, eq_comm]
  · cases p with
    | stack | sp | pc => simp at hp
    | _ => simp [Part.Same, memRead, readV, pixel]

/-- Settles O33: with an occupied slot the meaning of `RET` is a pop and a jump past the popped address. -/
theorem returnPops : Obligations.ReturnPops := by
  intro s hocc
  refine ⟨_, (exec_ret s).trans (dif_pos hocc), rfl, rfl, fun p hp => ?_⟩
  cases p with
  | sp | pc => simp at hp
  | _ => simp [Part.Same, memRead, readV, pixel]

theorem fetchAndRun_of_nextInstr {s : State} {i : Instr} (h : nextInstr s = some i) : fetchAndRun s = exec i s := by
  unfold nextInstr at h
  split at h
  · exact fetchAndRun_of_decodeWord ‹_› h
  · cases h

/-- The timer tick changes nothing that the fetch reads, so the next instruction is executed after it (R56). -/
theorem step_of_exec {s t : State} {i : Instr} (hrun : Running s) (hnext : nextInstr s = some i)
    (hexec : exec i (timerTick s) = .next t) : step s = .next (endCycle t) := by
  have htick : nextInstr (timerTick s) = some i := hnext
  rw [step_of_running hrun, fetchAndRun_of_nextInstr htick, hexec]
  rfl

theorem nextInstr_eq_ret {s : State} (hpc : s.pc.toNat ≤ 0xFFE) (hhi : memRead s s.pc.toNat = 0x00)
    (hlo : memRead s (s.pc.toNat + 1) = 0xEE) : nextInstr s = some .ret := by
  simp only [nextInstr, fetch_ok s hpc, hhi, hlo]
  decide

/-- Settles O34: the call leaves the machine running at the `RET`, with its own address in the slot that the return pops. -/
theorem callThenReturnComesBack : Obligations.CallThenReturnComesBack := by
  intro s nnn hrun hfree hpc hnext htarget hhi hlo
  obtain ⟨t, ht, htsp, htpc, hstack, hkept⟩ := callPushesItsOwnAddress nnn (timerTick s) hfree
  have hmem : ∀ a, memRead (endCycle t) a = memRead s a := hkept .mem (by decide)
  have hrun' : Running (endCycle t) := (hkept .halt (by decide) : t.halt = s.halt).trans hrun
  have hpc' : (endCycle t).pc.toNat = nnn.toNat := htpc
  have hret : nextInstr (endCycle t) = some .ret :=
    nextInstr_eq_ret (by rwa [hpc']) (by rwa [hpc', hmem]) (by rwa [hpc', hmem])
  have hsp : t.sp.val = s.sp.val + 1 := htsp
  have hslot : t.stack[s.sp.val] = s.pc := (hstack ⟨s.sp.val, hfree⟩).trans (if_pos rfl)
  obtain ⟨u, hu, husp, hupc, hkept'⟩ := returnPops (timerTick (endCycle t)) (show 0 < t.sp.val by omega)
  refine ⟨_, _, step_of_exec hrun hnext ht, step_of_exec hrun' hret hu, ?_, ?_, ?_⟩
  · exact (hkept' .halt (by decide) : u.halt = t.halt).trans hrun'
  · have hback : u.pc = s.pc + 2 := by simpa [hsp, hslot] using hupc
    rw [endCycle_pc, hback]
    bv_omega
  · have hsame : u.sp.val = t.sp.val - 1 := husp
    exact Fin.ext (by rw [endCycle_sp]; omega)

/-! ## Skips (R65 to R69) -/

theorem skipIf_keepsAllBut_pc (c : Bool) (s : State) : KeepsAllBut [.pc] s (skipIf c s) := by
  cases c <;> exact setPc_keepsAllBut_pc _ s

/-- Where a skip on the negation of `p` goes. -/
theorem skipIf_pc_of_iff_not {c : Bool} {p : Prop} [Decidable p] (h : c = true ↔ ¬ p) (s : State) :
    (skipIf c s).pc = if p then s.pc + 2 else s.pc + 4 :=
  (skipIf_pc_eq_skipTo h s).trans (ite_not ..)

/-- A skip taken in the last three places where an instruction stands leaves memory (R40). -/
theorem fetch_skipIf_of_ge {c : Bool} {s : State} (hc : c = true) (hlo : 0xFFC ≤ s.pc.toNat) (hhi : s.pc.toNat ≤ 0xFFE) :
    fetch (skipIf c s) = .error (s.pc.toNat + 4) := by
  have hpc : (skipIf c s).pc.toNat = s.pc.toNat + 4 := by
    rw [skipIf_pc, if_pos hc]
    bv_omega
  rw [fetch_error _ (by omega), hpc, max_eq_left (by omega)]

/-- Settles O35: the two skips test the same equality, `SE` for it and `SNE` against it. -/
theorem skipsOnAnImmediate : Obligations.SkipsOnAnImmediate := by
  intro x kk s
  refine ⟨decodeWord_encodeWord (.seImm x kk), decodeWord_encodeWord (.sneImm x kk),
    ⟨_, rfl, skipIf_pc_eq_skipTo ?_ s, skipIf_keepsAllBut_pc _ s⟩,
    ⟨_, rfl, skipIf_pc_of_iff_not ?_ s, skipIf_keepsAllBut_pc _ s⟩,
    fun hlo hhi => ⟨fun h => ⟨_, rfl, fetch_skipIf_of_ge ?_ hlo hhi⟩, fun h => ⟨_, rfl, fetch_skipIf_of_ge ?_ hlo hhi⟩⟩⟩
  · rw [beq_iff_eq, BitVec.toNat_inj]
  · rw [bne_iff_ne, BitVec.toNat_inj]
  · exact beq_iff_eq.mpr h
  · exact bne_iff_ne.mpr h

/-- A register equals itself, so the test of one number against itself needs no case of its own. -/
theorem eq_or_readV_toNat_eq_iff (x y : Reg) (s : State) :
    (x = y ∨ (readV s x).toNat = (readV s y).toNat) ↔ readV s x = readV s y := by
  rw [BitVec.toNat_inj, or_iff_right_of_imp (congrArg (readV s))]

/-- Settles O36: the two skips test the same equality, and a low nibble other than 0 is rejected in both groups (R53). -/
theorem skipsOnRegisters : Obligations.SkipsOnRegisters := by
  intro x y s
  refine ⟨decodeWord_encodeWord (.seReg x y), decodeWord_encodeWord (.sneReg x y), fun n hn => ⟨?_, ?_⟩,
    ⟨_, rfl, skipIf_keepsAllBut_pc _ s, skipIf_pc_eq_skipTo ?_ s⟩,
    ⟨_, rfl, skipIf_keepsAllBut_pc _ s, skipIf_pc_of_iff_not ?_ s⟩⟩
  · simpa [decodeWord] using hn
  · simpa [decodeWord] using hn
  · rw [beq_iff_eq, eq_or_readV_toNat_eq_iff]
  · rw [bne_iff_ne, eq_or_readV_toNat_eq_iff]

end Sys2Proof.Proofs

/-! # Loads, adds, logic, subtractions and shifts (42_arithmetic.md) -/

namespace Sys2Proof.Proofs

open Sys2Proof.Machine Sys2Proof.Safety

/-! ## A register written, with or without a flag, and the next word (R70, R72) -/

/-- A meaning that only writes registers, be it one or a result and its flag, and goes on leaves every other part alone. -/
theorem advance_withV_keepsAllBut_V_pc (W : Vector Byte 16) (s : State) :
    KeepsAllBut [.V, .pc] s (advance { s with V := W }) := by
  intro p hp
  cases p with
  | V | pc => simp at hp
  | _ => simp [Part.Same, memRead, pixel]

/-- The registers after a result and its flag, as numbers: in `VF` the flag stays (D8). -/
theorem toNat_readV_writeResultFlag (x r : Reg) (a f : Byte) (s : State) :
    (readV (writeResultFlag x a f s) r).toNat =
      if r = flagReg then f.toNat else if r = x then a.toNat else (readV s r).toNat := by
  rw [readV_writeResultFlag, apply_ite BitVec.toNat, apply_ite BitVec.toNat]

/-! ## Addition (R79) -/

/-- Settles O40: the meaning writes the wrapped sum, then the carry as the flag. -/
theorem addSetsTheCarry : Obligations.AddSetsTheCarry := by
  refine fun x y s => ⟨_, rfl, rfl, advance_withV_keepsAllBut_V_pc _ s, fun r => ?_⟩
  rw [readV_advance, toNat_readV_writeResultFlag, addFlag_toNat, BitVec.toNat_add]

/-! ## Subtraction (R80, R81) -/

theorem toNat_sub_eq_emod (a b : Byte) : ((a - b).toNat : Int) = ((a.toNat : Int) - b.toNat) % 256 := by
  have hb := b.isLt
  rw [BitVec.toNat_sub]
  omega

/-- `SUB` and `SUBN` differ in the order of the operands alone: the registers after minuend `a` less subtrahend `b`. -/
theorem toNat_readV_difference (x r : Reg) (a b : Byte) (s : State) :
    ((readV (writeResultFlag x (a - b) (subFlag a b) s) r).toNat : Int) =
      if r = flagReg then (if b.toNat < a.toNat then 1 else 0)
      else if r = x then ((a.toNat : Int) - b.toNat) % 256 else (readV s r).toNat := by
  rw [toNat_readV_writeResultFlag, subFlag_toNat, ← toNat_sub_eq_emod]
  simp only [Nat.cast_ite, Nat.cast_one, Nat.cast_zero]

/-- Settles O41: both meanings write a wrapped difference, then whether its minuend exceeds its subtrahend. -/
theorem subtractsSetNoBorrow : Obligations.SubtractsSetNoBorrow := fun x y s =>
  ⟨⟨_, rfl, rfl, advance_withV_keepsAllBut_V_pc _ s,
      fun r => toNat_readV_difference x r (readV s x) (readV s y) s⟩,
    ⟨_, rfl, rfl, advance_withV_keepsAllBut_V_pc _ s,
      fun r => toNat_readV_difference x r (readV s y) (readV s x) s⟩⟩

/-! ## Shifts (R82, R83) -/

/-- A value that is `V[x]` under one parameter value and `V[y]` under the other is the operand of the shift. -/
theorem eq_shiftOperand_toNat {x y : Reg} {s : State} {v : Nat} (hvx : s.params.shiftSource = .vx → v = (readV s x).toNat)
    (hvy : s.params.shiftSource = .vy → v = (readV s y).toNat) : v = (shiftOperand s x y).toNat := by
  cases h : s.params.shiftSource with
  | vx => rw [hvx h, shiftOperand_vx s x y h]
  | vy => rw [hvy h, shiftOperand_vy s x y h]

/-- Settles O42: both meanings shift the one operand by one place, and write the bit that falls out as the flag. -/
theorem shiftsMoveOneBitIntoVf : Obligations.ShiftsMoveOneBitIntoVf := by
  intro x y s v hvx hvy
  obtain rfl := eq_shiftOperand_toNat hvx hvy
  refine ⟨⟨_, rfl, rfl, advance_withV_keepsAllBut_V_pc _ s, fun r => ?_⟩,
    ⟨_, rfl, rfl, advance_withV_keepsAllBut_V_pc _ s, fun r => ?_⟩⟩
  · have hhalf : (shiftOperand s x y >>> 1).toNat = (shiftOperand s x y).toNat / 2 := by
      rw [BitVec.toNat_ushiftRight, Nat.shiftRight_one]
    rw [readV_advance, toNat_readV_writeResultFlag, shrFlag_toNat, hhalf]
  · have hdouble : (shiftOperand s x y <<< 1).toNat = 2 * (shiftOperand s x y).toNat % 256 := by
      rw [BitVec.toNat_shiftLeft, Nat.shiftLeft_eq, Nat.mul_comm]
    rw [readV_advance, toNat_readV_writeResultFlag, shlFlag_toNat, hdouble]

/-! ## Immediates (R73, R74) -/

/-- Settles O38: both meanings write `V[x]` and no flag. -/
theorem loadAndAddImmediate : Obligations.LoadAndAddImmediate := by
  refine fun x kk s => ⟨decodeWord_encodeWord (.ldImm x kk), decodeWord_encodeWord (.addImm x kk),
    ⟨_, rfl, rfl, advance_withV_keepsAllBut_V_pc _ s, fun r => readV_writeV x r kk s⟩,
    ⟨_, rfl, rfl, advance_withV_keepsAllBut_V_pc _ s, fun r => ?_⟩⟩
  rw [readV_advance, readV_writeV, apply_ite BitVec.toNat, BitVec.toNat_add]

/-! ## Copy and logic (R75 to R78) -/

/-- What an instruction does that writes `V[x]` alone, the written value given bit by bit. -/
theorem exec_writes_bits {i : Instr} {x : Reg} {v : Byte} {s : State} {bits : Nat → Bool}
    (h : exec i s = .next (advance (writeV x v s))) (hv : ∀ b, v.getLsbD b = bits b) :
    ∃ t, exec i s = .next t ∧ t.pc = s.pc + 2 ∧ KeepsAllBut [.V, .pc] s t ∧ (∀ r, r ≠ x → readV t r = readV s r) ∧
      ∀ b, (readV t x).getLsbD b = bits b := by
  refine ⟨_, h, rfl, advance_withV_keepsAllBut_V_pc _ s, fun r hr => readV_writeV_ne hr.symm v s, fun b => ?_⟩
  rw [readV_advance, readV_writeV_same, hv]

/-- Settles O39: all four meanings write `V[x]` and no flag, and the three logical ones act on each bit by itself. -/
theorem copyAndLogic : Obligations.CopyAndLogic := fun x y s =>
  ⟨decodeWord_encodeWord (.ldReg x y), decodeWord_encodeWord (.or x y), decodeWord_encodeWord (.and x y),
    decodeWord_encodeWord (.xor x y),
    ⟨_, rfl, rfl, advance_withV_keepsAllBut_V_pc _ s, fun r => readV_writeV x r (readV s y) s⟩,
    exec_writes_bits rfl fun _ => BitVec.getLsbD_or, exec_writes_bits rfl fun _ => BitVec.getLsbD_and,
    exec_writes_bits rfl fun _ => BitVec.getLsbD_xor⟩

end Sys2Proof.Proofs

/-! # The index register, and stores and loads through it (43_index_memory.md) -/

namespace Sys2Proof.Proofs

open Sys2Proof.Machine Sys2Proof.Safety

/-- Going on to the next word adds the pc to what an effect changes. -/
theorem advance_keepsAllBut {ps : List Part} {s t : State} (h : KeepsAllBut ps s t) :
    KeepsAllBut (ps ++ [.pc]) s (advance t) := by
  intro p hp
  rw [List.mem_append, not_or] at hp
  have hkept := h p hp.1
  cases p with
  | pc => simp at hp
  | _ => exact hkept

/-! ## Stores (R87, R88) -/

theorem memWriteList_keepsAllBut_mem (a : Nat) (l : List Byte) (s : State) : KeepsAllBut [.mem] s (memWriteList a l s) := by
  intro p hp
  cases p with
  | mem => simp at hp
  | _ => simp [Part.Same]

theorem storeRegs_keepsAllBut_mem (n : Nat) (s : State) : KeepsAllBut [.mem] s (storeRegs n s) := by
  intro p hp
  cases p with
  | mem => simp at hp
  | _ => simp [Part.Same]

/-- Each digit fits a byte. -/
theorem bcdDigits_map_toNat (v : Byte) :
    (bcdDigits v).map BitVec.toNat = [v.toNat / 100, v.toNat / 10 % 10, v.toNat % 10] := by
  have hv := v.isLt
  have hhundreds : v.toNat / 100 < 256 := by omega
  have htens : v.toNat / 10 % 10 < 256 := by omega
  have hunits : v.toNat % 10 < 256 := by omega
  simp [bcdDigits, Nat.mod_eq_of_lt, hhundreds, htens, hunits]

/-- The bytes that a store of digits leaves, as numbers. -/
theorem toNat_memRead_memWriteList_bcdDigits (a : Nat) (v : Byte) (s : State) {k : Nat} (hk : k < 3) :
    (memRead (memWriteList a (bcdDigits v) s) (a + k)).toNat = [v.toNat / 100, v.toNat / 10 % 10, v.toNat % 10][k] := by
  have hlen : (bcdDigits v).length = 3 := rfl
  rw [memRead_memWriteList_inside s (Nat.le_add_right a k) (by omega)]
  simp only [Nat.add_sub_cancel_left, ← bcdDigits_map_toNat, List.getElem_map]

theorem exec_ldB_of_le (x : Reg) {s : State} (h : s.I.toNat + 2 ≤ 0xFFF) :
    exec (.ldB x) s = .next (advance (memWriteList (baseI s) (bcdDigits (readV s x)) s)) :=
  congrArg _ (withRange_ok _ _ _ _ _ h)

/-- Settles O46: inside memory the meaning writes the three digits of `V[x]` as a run of bytes from `I`. -/
theorem bcdStoresThreeDigits : Obligations.BcdStoresThreeDigits := by
  intro x s hin
  have hdigit {k : Nat} (hk : k < 3) := toNat_memRead_memWriteList_bcdDigits s.I.toNat (readV s x) s hk
  have hlen : (bcdDigits (readV s x)).length = 3 := rfl
  refine ⟨_, exec_ldB_of_le x hin, by simp, advance_keepsAllBut (memWriteList_keepsAllBut_mem _ _ s),
    hdigit (k := 0) (by decide), hdigit (k := 1) (by decide), hdigit (k := 2) (by decide), fun a ha => ?_⟩
  exact memRead_memWriteList_outside s (by rw [baseI_eq]; omega)

/-- Settles O47: inside memory the meaning stores the registers below `x + 1`, one byte each. -/
theorem registerRangeIsStored : Obligations.RegisterRangeIsStored := by
  intro x s hin
  refine ⟨_, exec_stRange_of_le hin, by simp, advance_keepsAllBut (storeRegs_keepsAllBut_mem _ s),
    fun k hk => memRead_storeRegs_of_lt s (Nat.lt_succ_of_le hk), fun a ha => ?_⟩
  exact (memRead_storeRegs _ s a).trans (if_neg (by rw [baseI_eq]; omega))

/-! ## Loads (R89) -/

theorem loadRegs_keepsAllBut_V (n : Nat) (s : State) : KeepsAllBut [.V] s (loadRegs n s) := by
  intro p hp
  cases p with
  | V => simp at hp
  | _ => simp [Part.Same]

theorem exec_ldRange_of_le {x : Reg} {s : State} (h : s.I.toNat + x.toNat ≤ 0xFFF) :
    exec (.ldRange x) s = .next (advance (loadRegs (x.toNat + 1) s)) :=
  congrArg _ (withRange_ok _ _ _ _ _ h)

/-- Settles O48: inside memory the meaning loads the registers below `x + 1`, which are at most sixteen. -/
theorem registerRangeIsLoaded : Obligations.RegisterRangeIsLoaded := by
  intro x s hin
  refine ⟨_, exec_ldRange_of_le hin, by simp, advance_keepsAllBut (loadRegs_keepsAllBut_V _ s), fun k => ?_⟩
  simp only [readV_advance, readV_loadRegs _ x.isLt, Nat.lt_succ_iff]

/-! ## The index register (R84 to R86) -/

theorem setI_keepsAllBut_I (a : Word) (s : State) : KeepsAllBut [.I] s (setI a s) := by
  intro p hp
  cases p with
  | I => simp at hp
  | _ => simp [Part.Same]

/-- Settles O44: both meanings set `I` alone, to an address field and to the address of a glyph. -/
theorem indexLoads : Obligations.IndexLoads := by
  intro nnn x s
  have hglyph := glyphAddr_toNat (readV s x)
  have hbound : (glyphAddr (readV s x)).toNat ≤ 0x54B := by
    have hv := (readV s x).isLt
    omega
  exact ⟨decodeWord_encodeWord (.ldI nnn), decodeWord_encodeWord (.ldF x),
    ⟨_, rfl, rfl, advance_keepsAllBut (setI_keepsAllBut_I _ s), addrOf_toNat nnn⟩,
    ⟨_, rfl, rfl, advance_keepsAllBut (setI_keepsAllBut_I _ s), hglyph, hbound⟩⟩

/-- Settles O45: the meaning sets `I` alone, to a 16-bit sum, and checks no range (D13). -/
theorem addToIndexWraps : Obligations.AddToIndexWraps := by
  refine fun x s => ⟨_, rfl, rfl, advance_keepsAllBut (setI_keepsAllBut_I _ s), ?_⟩
  have hwiden : ((readV s x).zeroExtend 16).toNat = (readV s x).toNat := BitVec.toNat_setWidth_of_le (by decide)
  rw [advance_I, setI_I, BitVec.toNat_add, hwiden]

end Sys2Proof.Proofs

/-! # The key skips and the delay-timer transfers (44_input_timers.md) -/

namespace Sys2Proof.Proofs

open Sys2Proof.Machine Sys2Proof.Safety

/-! ## Key skips (R90, R91) -/

theorem keyPressed_of_noKeys {s : State} (h : s.keys = noKeys) (k : Nibble) : keyPressed s k = false := by
  simp [keyPressed, h]

/-- Settles O37: the two skips test the same key, `SKP` for it and `SKNP` against it, and with an empty set no key is pressed. -/
theorem skipsOnKeys : Obligations.SkipsOnKeys := by
  intro x s
  refine ⟨decodeWord_encodeWord (.skp x), decodeWord_encodeWord (.sknp x),
    ⟨_, rfl, skipIf_keepsAllBut_pc _ s, skipIf_pc_eq_skipTo ?_ s⟩,
    ⟨_, rfl, skipIf_keepsAllBut_pc _ s, skipIf_pc_of_iff_not ?_ s⟩, fun hempty => ?_⟩
  · rw [keyPressed_keyOf]
  · rw [keyPressed_keyOf, Bool.not_eq_true', Bool.not_eq_true]
  · have hnone := keyPressed_of_noKeys hempty (keyOf (readV s x))
    exact ⟨by simp [exec, execSkp, skipIf, hnone], by simp [exec, execSknp, skipIf, hnone]⟩

/-! ## Delay-timer transfers (R92, R93) -/

theorem setDt_keepsAllBut_dt (v : Byte) (s : State) : KeepsAllBut [.dt] s (setDt v s) := by
  intro p hp
  cases p with
  | dt => simp at hp
  | _ => simp [Part.Same]

/-- Settles O50: each meaning copies one byte; in a cycle it runs after the timer tick, so a read sees the decremented timer and a
written timer is not decremented. -/
theorem delayTimerTransfers : Obligations.DelayTimerTransfers := by
  refine fun x s => ⟨decodeWord_encodeWord (.ldVDt x), decodeWord_encodeWord (.ldDtV x),
    ⟨_, rfl, rfl, advance_withV_keepsAllBut_V_pc _ s, fun r => readV_writeV x r s.dt s⟩,
    ⟨_, rfl, rfl, advance_keepsAllBut (setDt_keepsAllBut_dt _ s), rfl⟩,
    fun hrun hnext => ⟨_, step_of_exec hrun hnext rfl, ?_⟩, fun hrun hnext => ⟨_, step_of_exec hrun hnext rfl, rfl⟩⟩
  rw [readV_endCycle, readV_advance, readV_writeV_same, timerTick_dt, decTimer_toNat]

end Sys2Proof.Proofs

/-! # Faults, the halted machine and the timers (60_exceptions.md) -/

namespace Sys2Proof.Proofs

open Sys2Proof.Machine Sys2Proof.Safety

/-! ## Faults are next states, and a halted machine stays (R100, R102) -/

theorem fetchAndRun_answers_next (s : State) : ∃ t, fetchAndRun s = .next t := by
  unfold fetchAndRun runWord
  split
  · split
    · exact exec_answers_next _ s
    · exact ⟨_, rfl⟩
  · exact ⟨_, rfl⟩

/-- Settles O11: a halted machine answers itself; in any other cycle the fetch with what its word does answers a next state, and the
end of the cycle follows. -/
theorem everyStepAnswersNext : Obligations.EveryStepAnswersNext := by
  refine ⟨fun s => ?_, exec_answers_next⟩
  cases hs : s.halt with
  | some r => exact ⟨s, step_of_halted (by simp [hs])⟩
  | none =>
    obtain ⟨u, hu⟩ := fetchAndRun_answers_next (timerTick s)
    exact ⟨endCycle u, by rw [step_of_running hs, hu]; rfl⟩

theorem cycle_of_halted {s : State} (h : s.halt.isSome = true) (K : KeySet) : cycle K s = .next s := if_pos h

theorem cycleOutcome_of_halt_eq {s : State} {r : FaultRecord} (h : s.halt = some r) : cycleOutcome s = .faulted r := by
  simp only [cycleOutcome, h]

/-- Settles O12: the record alone decides that the cycle is not begun, whatever the keys. -/
theorem haltedMachineIsFrozen : Obligations.HaltedMachineIsFrozen := by
  intro s K r hr
  have hhalted : s.halt.isSome = true := by rw [hr]; rfl
  exact ⟨step_of_halted hhalted, cycle_of_halted hhalted K, cycleOutcome_of_halt_eq hr⟩

/-! ## The invalid opcode (R96) -/

theorem fetchAndRun_of_invalid {s : State} {w : Word} (hfetch : fetch s = .ok w) (h : decodeWord w = none) :
    fetchAndRun s = .next (raiseFault .invalidOpcode (some w) none s) := by
  simp only [fetchAndRun, runWord, hfetch, h]

/-- The word is fetched after the timer tick as before it, and its fault is taken within the cycle (R56, R100). -/
theorem step_of_invalid {s : State} {w : Word} (hrun : Running s) (hfetch : fetch s = .ok w) (h : decodeWord w = none) :
    step s = .next (endCycle (raiseFault .invalidOpcode (some w) none (timerTick s))) := by
  have hfetch : fetch (timerTick s) = .ok w := hfetch
  rw [step_of_running hrun, fetchAndRun_of_invalid hfetch h]
  rfl

/-- Settles O13: the step leaves the record of an invalid word, and a machine with a record is halted. -/
theorem invalidOpcodeHalts : Obligations.InvalidOpcodeHalts := fun s _ hrun hfetch hinvalid =>
  ⟨_, step_of_invalid hrun hfetch hinvalid, rfl, rfl, cycleOutcome_of_halt_eq rfl, onlyFaulted_of_raiseFault _ _ _ s,
    step_of_halted rfl⟩

/-! ## The faults of the meanings (R97 to R99) -/

theorem raiseIn_keepsAllBut_halt (i : Instr) (k : FaultKind) (a : Option Nat) (s : State) :
    KeepsAllBut [.halt] s (raiseIn i k a s) := by
  intro p hp
  cases p with
  | halt => simp at hp
  | _ => simp [Part.Same]

/-- Settles O15: without a free slot there is no push, without an occupied one no pop, and the fault is all that is left. -/
theorem stackFaultsWriteNothing : Obligations.StackFaultsWriteNothing := by
  refine fun s => ⟨fun nnn hfull => ?_, fun hempty => ?_⟩
  · exact ⟨_, (exec_call nnn s).trans (dif_neg (by omega)), rfl, raiseIn_keepsAllBut_halt _ _ _ s⟩
  · exact ⟨_, (exec_ret s).trans (dif_neg (by omega)), rfl, raiseIn_keepsAllBut_halt _ _ _ s⟩

/-- An access that ends above 0xFFF has no effect but its fault. -/
theorem raisesOutOfRange_of_withRange {i : Instr} {hi : Nat} {f : State → State} {s : State}
    (hexec : exec i s = .next (withRange i (baseI s) hi f s)) (hout : 0xFFF < hi) : RaisesOutOfRange i (encodeWord i) s := by
  rw [withRange_fault _ _ _ _ _ hout] at hexec
  exact ⟨_, hexec, rfl, raiseIn_keepsAllBut_halt _ _ _ s⟩

/-- Settles O16: each of the four meanings is an effect behind the check of its last address. -/
theorem accessesOutsideMemoryWriteNothing : Obligations.AccessesOutsideMemoryWriteNothing := fun _ x y n =>
  ⟨fun hn => raisesOutOfRange_of_withRange (i := .drw x y n) (if_neg hn), raisesOutOfRange_of_withRange (i := .ldB x) rfl,
    raisesOutOfRange_of_withRange (i := .stRange x) rfl, raisesOutOfRange_of_withRange (i := .ldRange x) rfl⟩

/-! ## There is no other fault (R95), and a fault is precise (R101) -/

/-- Why the meaning of an instruction faults in `s`, with the kind and the address of its record (R97 to R99). -/
inductive MeaningFault (s : State) : Instr → FaultKind → Option Nat → Prop
  | stackFull (nnn : Addr12) : s.sp.val = 16 → MeaningFault s (.call nnn) .stackOverflow none
  | stackEmpty : s.sp.val = 0 → MeaningFault s .ret .stackUnderflow none
  | outside {i : Instr} {last : Nat} (first : Nat) :
      lastAccess s i = some last → 0xFFF < last → MeaningFault s i .memoryOutOfRange (some first)

/-- Why a cycle's fetch, or what its word does, faults in `s`, with the kind, the word and the address of the record (R95). -/
inductive CycleFault (s : State) : FaultKind → Option Word → Option Nat → Prop
  | fetchOutside {a : Nat} : fetch s = .error a → CycleFault s .memoryOutOfRange none (some a)
  | invalidWord {w : Word} : fetch s = .ok w → decodeWord w = none → CycleFault s .invalidOpcode (some w) none
  | meaning {w : Word} {i : Instr} {k : FaultKind} {a : Option Nat} :
      fetch s = .ok w → decodeWord w = some i → MeaningFault s i k a → CycleFault s k (some w) a

/-- An access keeps the record, or it ends above 0xFFF and raises MemoryOutOfRange. -/
theorem withRange_halt_or_faults {i : Instr} {lo last : Nat} {f : State → State} {s : State} (hlast : lastAccess s i = some last)
    (hf : (f s).halt = s.halt) :
    (withRange i lo last f s).halt = s.halt ∨ ∃ k a, withRange i lo last f s = raiseIn i k a s ∧ MeaningFault s i k a := by
  by_cases hin : last ≤ 0xFFF
  · exact .inl (withRange_ok i lo last f s hin ▸ hf)
  · have hout : 0xFFF < last := by omega
    exact .inr ⟨_, _, withRange_fault i lo last f s hout, .outside _ hlast hout⟩

/-- A meaning keeps the record, or it raises one of its faults and does nothing else. -/
theorem exec_halt_or_faults {i : Instr} {s t : State} (h : exec i s = .next t) :
    t.halt = s.halt ∨ ∃ k a, t = raiseIn i k a s ∧ MeaningFault s i k a := by
  cases i with
  | ret =>
    rw [exec_ret] at h
    split at h <;> cases h
    · exact .inl rfl
    · exact .inr ⟨_, _, rfl, .stackEmpty (by omega)⟩
  | call nnn =>
    rw [exec_call] at h
    split at h <;> cases h
    · exact .inl rfl
    · exact .inr ⟨_, _, rfl, .stackFull nnn (by omega)⟩
  | drw x y n =>
    simp only [exec, execDrw] at h
    split at h <;> cases h
    · exact .inl (by simp)
    · rename_i hn
      exact withRange_halt_or_faults (if_neg hn) (by simp)
  | ldB | stRange | ldRange =>
    cases h
    exact withRange_halt_or_faults rfl (by simp)
  | _ =>
    rw [exec_keeps [.halt] (by simp [footprint]) h]
    exact .inl rfl

/-- A fault that a meaning raises has the fetched word in its record, since that is the instruction's one word (R50; log 6). -/
theorem fetchAndRun_halt_or_faults {s t : State} (h : fetchAndRun s = .next t) :
    t.halt = s.halt ∨ ∃ k w a, t = raiseFault k w a s ∧ CycleFault s k w a := by
  obtain ⟨a, hfetch, rfl⟩ | ⟨w, hfetch, hinvalid, rfl⟩ | ⟨w, i, hfetch, hdecode, hexec⟩ := fetchAndRun_eq_next h
  · exact .inr ⟨_, _, _, rfl, .fetchOutside hfetch⟩
  · exact .inr ⟨_, _, _, rfl, .invalidWord hfetch hinvalid⟩
  · obtain hhalt | ⟨k, a, rfl, hfault⟩ := exec_halt_or_faults hexec
    · exact .inl hhalt
    · rw [raiseIn, encodeOfDecodeIsIdentity w i hdecode]
      exact .inr ⟨_, _, _, rfl, .meaning hfetch hdecode hfault⟩

/-- A step that halts a running machine is a timer tick, a fault for a reason of R95, and the end of the cycle. -/
theorem step_of_halts {s t : State} (hrun : Running s) (h : step s = .next t) (hhalt : t.halt ≠ none) :
    ∃ k w a, t = endCycle (raiseFault k w a (timerTick s)) ∧ CycleFault (timerTick s) k w a := by
  obtain ⟨hs, -⟩ | ⟨-, u, hu, rfl⟩ := step_eq_next h
  · simp [hrun] at hs
  · obtain hkept | ⟨k, w, a, rfl, hfault⟩ := fetchAndRun_halt_or_faults hu
    · exact absurd (hkept.trans hrun) hhalt
    · exact ⟨k, w, a, rfl, hfault⟩

theorem lt_pc_of_fetch_eq_error {s : State} {a : Nat} (h : fetch s = .error a) : 0xFFE < s.pc.toNat := by
  by_contra hle
  rw [fetch_ok s (by omega)] at h
  cases h

/-- An address is recorded for MemoryOutOfRange alone (R95, D26). -/
theorem addr_isSome_iff_of_cycleFault {s : State} {k : FaultKind} {w : Option Word} {a : Option Nat} (h : CycleFault s k w a) :
    a.isSome ↔ k.code = 4 := by
  cases h with
  | meaning _ _ hmeaning => cases hmeaning <;> simp [FaultKind.code]
  | _ => simp [FaultKind.code]

/-- Settles O17, reason by reason; the timer tick changes nothing that a reason speaks of. -/
theorem faultsAreThoseListed : Obligations.FaultsAreThoseListed := by
  intro s t r hrun h hr
  obtain ⟨k, w, a, rfl, hfault⟩ := step_of_halts hrun h (by simp [hr])
  cases hr
  refine ⟨rfl, addr_isSome_iff_of_cycleFault hfault, ?_⟩
  cases hfault with
  | fetchOutside hfetch => exact .inl ⟨lt_pc_of_fetch_eq_error hfetch, rfl, rfl⟩
  | invalidWord hfetch hinvalid => exact .inr ⟨_, hfetch, rfl, .inl ⟨hinvalid, rfl⟩⟩
  | meaning hfetch hdecode hmeaning =>
    refine .inr ⟨_, hfetch, rfl, .inr ?_⟩
    cases hmeaning with
    | stackFull nnn hsp => exact .inl ⟨nnn, hdecode, hsp, rfl⟩
    | stackEmpty hsp => exact .inr (.inl ⟨hdecode, hsp, rfl⟩)
    | outside first hlast hout => exact .inr (.inr ⟨_, _, hdecode, hlast, hout, rfl⟩)

/-- Settles O18: what halts the machine is a fault taken within the cycle. -/
theorem faultsArePrecise : Obligations.FaultsArePrecise := by
  intro s t hrun h hhalt
  obtain ⟨k, w, a, rfl, -⟩ := step_of_halts hrun h hhalt
  exact onlyFaulted_of_raiseFault k w a s

/-! ## The timers, over a whole cycle (R107) -/

/-- What a fault keeps and the next instruction keeps, the step of a running machine keeps from the timer tick to its end. -/
theorem step_keeps_from_timerTick {α : Sort _} (g : State → α) {s t : State} (hrun : Running s) (h : step s = .next t)
    (hend : ∀ u, g (endCycle u) = g u) (hfault : ∀ k w a u, g (raiseFault k w a u) = g u)
    (hexec : ∀ i u, nextInstr s = some i → exec i (timerTick s) = .next u → g u = g (timerTick s)) :
    g t = g (timerTick s) := by
  obtain ⟨hs, -⟩ | ⟨-, u, hu, rfl⟩ := step_eq_next h
  · simp [hrun] at hs
  rw [hend]
  obtain ⟨a, -, rfl⟩ | ⟨w, -, -, rfl⟩ | ⟨w, i, hfetch, hdecode, hu⟩ := fetchAndRun_eq_next hu
  · exact hfault ..
  · exact hfault ..
  · have hfetch : fetch s = .ok w := hfetch
    exact hexec i u (by simp only [nextInstr, hfetch, hdecode]) hu

/-- The delay timer has one writer (R27). -/
theorem exec_dt {i : Instr} {s t : State} (h : exec i s = .next t) (hwrite : ∀ x, i ≠ .ldDtV x) : t.dt = s.dt := by
  cases i with
  | ldDtV x => exact absurd rfl (hwrite x)
  | ldVDt x =>
    cases h
    rfl
  | _ =>
    rw [exec_keeps [.dt] (by simp [footprint]) h]
    rfl

/-- Settles O19: no instruction writes the sound timer and one the delay timer, so each stays as the tick left it; the two transfers
read and write the delay timer after the tick. -/
theorem timersTickEveryCycle : Obligations.TimersTickEveryCycle := by
  intro s t hrun h
  refine ⟨?_, fun x hnext => ?_, fun hwrite => ?_, fun x hnext => ?_⟩
  · rw [step_keeps_from_timerTick (·.st) hrun h (fun _ => rfl) (fun _ _ _ _ => rfl) fun i u _ => exec_st]
    exact decTimer_toNat s.st
  · obtain ⟨-, -, -, -, -, hstep⟩ := delayTimerTransfers x s
    obtain ⟨t', ht', hdt⟩ := hstep hrun hnext
    cases ht'.symm.trans h
    exact hdt
  · rw [step_keeps_from_timerTick (·.dt) hrun h (fun _ => rfl) (fun _ _ _ _ => rfl) fun i u hnext hexec =>
      exec_dt hexec fun x hi => hwrite x (hi ▸ hnext)]
    exact decTimer_toNat s.dt
  · obtain ⟨-, -, -, -, hstep, -⟩ := delayTimerTransfers x s
    obtain ⟨t', ht', hread⟩ := hstep hrun hnext
    cases ht'.symm.trans h
    exact hread

end Sys2Proof.Proofs

/-! # The reset state, construction, and whole runs (70_reset_and_hazards.md) -/

namespace Sys2Proof.Proofs

open Sys2Proof.Machine Sys2Proof.Safety

/-! ## Reset (R117, R118) -/

/-- Reset lists no cell, so every read is of an unlisted address (R33). -/
theorem memRead_reset (a : Nat) : memRead .reset a = if a < 0x050 then 0 else font.getD (a - 0x050) 0 := rfl

theorem memRead_reset_of_outside_font {a : Nat} (h : a < 0x050 ∨ 0x09F < a) : memRead .reset a = 0 := by
  have hlen : font.length = 80 := rfl
  rw [memRead_reset]
  split
  · rfl
  · exact List.getD_eq_default _ _ (by omega)

/-- The bytes from the font's base are the font (R35). -/
theorem map_memRead_reset_eq_font : (List.range 80).map (fun k => memRead .reset (0x050 + k)) = font := by
  refine List.ext_getElem rfl fun k _ hk => ?_
  rw [List.getElem_map, List.getElem_range, memRead_reset, if_neg (by omega), Nat.add_sub_cancel_left,
    List.getD_eq_getElem _ _ hk]

/-- Settles O55: the registers, the stack and the screen are constant vectors, and memory reads as the font and zeros. -/
theorem resetIsTheConstructedState : Obligations.ResetIsTheConstructedState := by
  refine ⟨fun r => ?_, rfl, rfl, rfl, fun j => ?_, fun px py => ?_, rfl, rfl, keyPressed_of_noKeys rfl, rfl, rfl,
    map_memRead_reset_eq_font, fun _ => memRead_reset_of_outside_font⟩
  · simp [readV, State.reset]
  · simp [State.reset]
  · simp [pixel, State.reset, blankScreen]

/-! ## Construction (R109, R117) -/

theorem construct_of_le (p : Config.Params) {image : List Byte} (h : image.length ≤ 3584) :
    construct p image = some (memWriteList 0x200 image { State.reset with params := p }) := if_pos (decide_eq_true h)

theorem construct_of_gt (p : Config.Params) {image : List Byte} (h : 3584 < image.length) : construct p image = none :=
  if_neg fun hfits => Nat.not_le.mpr h (of_decide_eq_true hfits)

theorem memWriteList_withParams_keepsAllBut (a : Nat) (l : List Byte) (p : Config.Params) (s : State) :
    KeepsAllBut [.mem, .params] s (memWriteList a l { s with params := p }) := by
  intro part hpart
  have hkept : part.Same { s with params := p } (memWriteList a l { s with params := p }) :=
    memWriteList_keepsAllBut_mem a l _ part fun hmem => hpart (List.mem_append_left [Part.params] hmem)
  cases part with
  | params => simp at hpart
  | _ => exact hkept

/-- Settles O56: the image is one run of bytes from 0x200, written into the reset state that holds the parameters. -/
theorem constructionLoadsTheImage : Obligations.ConstructionLoadsTheImage := by
  refine fun p image => ⟨fun hfits => ⟨_, construct_of_le p hfits, by simp, memWriteList_withParams_keepsAllBut _ _ p _,
    fun k hk => ?_, fun a ha => ?_⟩, construct_of_gt p⟩
  · rw [memRead_memWriteList_inside _ (Nat.le_add_right _ k) (by omega)]
    simp only [Nat.add_sub_cancel_left]
  · exact memRead_memWriteList_outside _ (by omega)

/-! ## Whole runs (R120) -/

theorem withParams_inv {s : State} (hs : Inv s) (p : Config.Params) : Inv { s with params := p } :=
  ⟨hs.mem, hs.pc, hs.stack, hs.sound, hs.fault⟩

theorem supplyKeys_inv {s : State} (hs : Inv s) (K : KeySet) : Inv (supplyKeys K s) :=
  ⟨hs.mem, hs.pc, hs.stack, hs.sound, hs.fault⟩

theorem memWriteList_inv {s : State} (hs : Inv s) {a : Nat} {l : List Byte} (hfits : a + l.length ≤ 4096) :
    Inv (memWriteList a l s) where
  mem := memWriteList_wf l a s hfits hs.mem
  pc := by simpa using hs.pc
  stack := by simpa using hs.stack
  sound := by simpa using hs.sound
  fault := by simpa using hs.fault

theorem construct_inv (p : Config.Params) {image : List Byte} (h : image.length ≤ 3584) :
    ∃ s, construct p image = some s ∧ Inv s :=
  ⟨_, construct_of_le p h, memWriteList_inv (withParams_inv resetMeetsTheInvariant p) (by omega)⟩

/-- A halted machine answers itself (R102); a running one steps with the supplied keys, whatever they are. -/
theorem cycle_inv {s : State} (hs : Inv s) (K : KeySet) : ∃ t, cycle K s = .next t ∧ Inv t := by
  cases hhalt : s.halt with
  | some r => exact ⟨s, cycle_of_halted (by simp [hhalt]) K, hs⟩
  | none =>
    obtain ⟨hsteps, -⟩ := everyStepAnswersNext
    obtain ⟨t, ht⟩ := hsteps (supplyKeys K s)
    exact ⟨t, (cycleIsAStepWithTheSuppliedKeys K s hhalt).trans ht, stepKeepsTheInvariant _ t (supplyKeys_inv hs K) ht⟩

theorem cycles_cons_of_next {K : KeySet} {s t : State} (h : cycle K s = .next t) (Ks : List KeySet) :
    cycles (K :: Ks) s = cycles Ks t := by
  simp only [cycles, h]

/-- No run leaves the invariant, and none ends early. -/
theorem cycles_inv (Ks : List KeySet) {s : State} (hs : Inv s) : ∃ t, cycles Ks s = .next t ∧ Inv t := by
  induction Ks generalizing s with
  | nil => exact ⟨s, rfl, hs⟩
  | cons K Ks ih =>
    obtain ⟨t, hcycle, ht⟩ := cycle_inv hs K
    rw [cycles_cons_of_next hcycle]
    exact ih ht

/-- Settles O59: construction meets the invariant, and every cycle answers a next state that meets it again. -/
theorem everyProgramRunsInsideTheInvariant : Obligations.EveryProgramRunsInsideTheInvariant := by
  intro p image Ks hfits
  obtain ⟨s, hconstruct, hs⟩ := construct_inv p hfits
  obtain ⟨t, hrun, ht⟩ := cycles_inv Ks hs
  exact ⟨s, t, hconstruct, hrun, ht⟩

/-! ## The delay timer, written and read back (R123) -/

/-- Settles O51: the first step leaves `V[x]` in the delay timer and the machine running, and the tick of the second step stands
between that write and the read. -/
theorem delayWrittenThenReadIsOneLess : Obligations.DelayWrittenThenReadIsOneLess := by
  intro s t x y hrun hwrite hstep hread
  have hfirst : step s = .next (endCycle (advance (setDt (readV s x) (timerTick s)))) := step_of_exec hrun hwrite rfl
  cases hfirst.symm.trans hstep
  obtain ⟨-, -, -, -, hsecond, -⟩ := delayTimerTransfers y (endCycle (advance (setDt (readV s x) (timerTick s))))
  exact hsecond hrun hread

end Sys2Proof.Proofs

/-! # The decoder's written-out vectors (30_encoding.md; 95_test_vectors.md L2.1) -/

namespace Sys2Proof.Proofs

/-- Settles O6: each word that decodes is the encoding of its instruction; each that does not is among R53's invalid words, in the
groups `0`, `5`, `C` and `F`. -/
theorem writtenOutWordsDecode : Obligations.WrittenOutWordsDecode := by
  have invalid {w : Word} := (invalidWordsByLeadingNibble w).mpr
  exact ⟨decodeWord_encodeWord (.ldImm 0xA 0x05), decodeWord_encodeWord (.drw 1 2 15), decodeWord_encodeWord (.shr 0xA 0xB),
    decodeWord_encodeWord (.shl 0xA 0xB), decodeWord_encodeWord (.ldRange 1), decodeWord_encodeWord .cls,
    decodeWord_encodeWord .ret, invalid (by decide), invalid (by decide), invalid (by decide), invalid (by decide)⟩

end Sys2Proof.Proofs
